-- ==== Sys2Proof/Word.lean ====
section
/-! DEFINITION. The word types of the block (spec/00_scope.md R6 to R8) and the two operand widths. -/

namespace Sys2Proof

/-- A `u8` (R8): a stream byte, a data-memory byte, an 8-bit register half. -/
abbrev Byte := BitVec 8

/-- A `u16` (R8): a general register, `ip`, the flags word, an effective address. -/
abbrev Word := BitVec 16

/-- The 3-bit register code of R20 and R21. -/
abbrev RegCode := BitVec 3

/-- The width bit `w` (R73): `byte` is w = 0, `word` is w = 1. -/
inductive Width where
  | byte
  | word
  deriving DecidableEq, Repr

/-- `width(w)` of R11: the operand size in bits. -/
abbrev Width.bits : Width → Nat
  | .byte => 8
  | .word => 16

/-- The operand size in bytes, `1 + w`. -/
def Width.bytes : Width → Nat
  | .byte => 1
  | .word => 2

end Sys2Proof
end

