-- ==== Sys2Proof/Config.lean ====
section
/-! DEFINITION. The implementation parameters of the block (spec/00_scope.md R6). The spec draws no value from outside
the block (R239), so there is no free value here. -/

namespace Sys2Proof.Config

/-- `MEM_CAPACITY` (R6, R51): any capacity of at least 65536 is allowed and none above it can be observed
(92_eei_decisions.md D5). DESIGN CHOICE, log entry 4: the model holds exactly the reachable bytes. -/
def memCapacity : Nat := 65536

/-- The largest stream length `L` (R6, R232). -/
def maxStream : Nat := 65535

/-- The longest instruction in bytes (R6, R83). -/
def maxLength : Nat := 6

/-- What a data-memory byte that nothing has written reads as: memory is "zero-initialized at program start"
(R38, R44). -/
def unwrittenByte : Byte := 0

end Sys2Proof.Config
end

