-- ==== Sys2Proof/Syntax.lean ====
section
/-! DEFINITION. The instructions as data: one constructor of `Instr` per row of spec/opcode_table.json (34 rows,
spec/30_encoding.md R84), each with the raw fields its form has (R88), and the operand and operation names of the decoded
record. -/

namespace Sys2Proof

/-- The direction bit `d` (R72). -/
inductive Dir where
  /-- d = 0: the r/m operand is the destination. -/
  | toRm
  /-- d = 1: the reg operand is the destination. -/
  | toReg
  deriving DecidableEq, Repr

/-- The eight base expressions of R77, in the order of their rm codes 000 to 111. -/
inductive BaseExpr where
  | bxSi
  | bxDi
  | bpSi
  | bpDi
  | si
  | di
  | bp
  | bx
  deriving DecidableEq, Repr

/-- The r/m operand as it is encoded (R76 to R80): the mod field is the constructor, so that the raw bytes can be given
back (R88, 92_eei_decisions.md D30). -/
inductive RmOperand where
  /-- mod = 11: the register with this code. -/
  | reg (code : RegCode)
  /-- mod = 00, rm = 110: a 16-bit direct address (R78). -/
  | direct (addr : Word)
  /-- mod = 00, rm ≠ 110: no displacement. -/
  | ind (base : BaseExpr)
  /-- mod = 01: one displacement byte, sign-extended (R80). -/
  | ind8 (base : BaseExpr) (disp : Byte)
  /-- mod = 10: two displacement bytes. -/
  | ind16 (base : BaseExpr) (disp : Word)
  deriving DecidableEq, Repr

/-- The immediate bytes of an instruction as they stand in the stream (R82). -/
inductive Imm where
  | imm8 (v : Byte)
  | imm16 (v : Word)
  deriving DecidableEq, Repr

/-- The instruction forms, one per row of the opcode table. `d`, `w` and `s` are the bits of R71 to R74. -/
inductive Instr where
  | movRmReg (d : Dir) (w : Width) (reg : RegCode) (rm : RmOperand)
  | movRmImm (w : Width) (rm : RmOperand) (imm : Imm)
  | movRegImm (w : Width) (reg : RegCode) (imm : Imm)
  | movAccMem (w : Width) (addr : Word)
  | movMemAcc (w : Width) (addr : Word)
  | addRmReg (d : Dir) (w : Width) (reg : RegCode) (rm : RmOperand)
  | addRmImm (s : Bool) (w : Width) (rm : RmOperand) (imm : Imm)
  | addAccImm (w : Width) (imm : Imm)
  | subRmReg (d : Dir) (w : Width) (reg : RegCode) (rm : RmOperand)
  | subRmImm (s : Bool) (w : Width) (rm : RmOperand) (imm : Imm)
  | subAccImm (w : Width) (imm : Imm)
  | cmpRmReg (d : Dir) (w : Width) (reg : RegCode) (rm : RmOperand)
  | cmpRmImm (s : Bool) (w : Width) (rm : RmOperand) (imm : Imm)
  | cmpAccImm (w : Width) (imm : Imm)
  | jo (rel : Byte)
  | jno (rel : Byte)
  | jb (rel : Byte)
  | jnb (rel : Byte)
  | jz (rel : Byte)
  | jnz (rel : Byte)
  | jbe (rel : Byte)
  | jnbe (rel : Byte)
  | js (rel : Byte)
  | jns (rel : Byte)
  | jp (rel : Byte)
  | jnp (rel : Byte)
  | jl (rel : Byte)
  | jnl (rel : Byte)
  | jle (rel : Byte)
  | jnle (rel : Byte)
  | loopnz (rel : Byte)
  | loopz (rel : Byte)
  | loop (rel : Byte)
  | jcxz (rel : Byte)
  deriving DecidableEq, Repr

/-- A resolved operand of the decoded record (R88). -/
inductive Operand where
  /-- `Reg(w, code)` (R75). -/
  | reg (w : Width) (code : RegCode)
  /-- `MemDirect(a)` (R78). -/
  | memDirect (addr : Word)
  /-- `MemIndexed(base_expr, disp)` (R77, R80). -/
  | memIndexed (base : BaseExpr) (disp : Word)
  /-- `Imm(v, w)`: v and its width. -/
  | imm (v : Imm)
  deriving DecidableEq, Repr

/-- The operation of the decoded record (R88). -/
inductive Op where
  | mov
  | add
  | sub
  | cmp
  /-- `JCC(cc)`, cc = b0[3:0]. -/
  | jcc (cc : BitVec 4)
  /-- `LOOPK(k)`, k = b0[1:0]. -/
  | loopk (k : BitVec 2)
  deriving DecidableEq, Repr

end Sys2Proof
end

