-- ==== Sys2Proof/WellFormed.lean ====
section
/-! DEFINITION. Which terms of `Instr` are encodable: the checks of spec/30_encoding.md R74, R78 and R82. -/

namespace Sys2Proof

/-- `[bp]` with mod = 00 is not an encoding: mod = 00, rm = 110 is the direct address (R78). -/
def RmOperand.wf : RmOperand → Bool
  | .ind .bp => false
  | _ => true

/-- An immediate of the operand's own width: one byte when w = 0, two when w = 1 (R82). -/
def Imm.fits (i : Imm) (w : Width) : Bool :=
  match w, i with
  | .byte, .imm8 _ => true
  | .word, .imm16 _ => true
  | _, _ => false

/-- An immediate of the group 80-83: two bytes when (s, w) = (0, 1), else one (R74, R83). -/
def Imm.fitsGroup (i : Imm) (s : Bool) (w : Width) : Bool :=
  match s, w, i with
  | false, .word, .imm16 _ => true
  | true, .word, .imm8 _ => true
  | _, .byte, .imm8 _ => true
  | _, _, _ => false

/-- The instruction is one that some byte sequence encodes. -/
def Instr.wf : Instr → Bool
  | .movRmReg _ _ _ rm => rm.wf
  | .movRmImm w rm imm => rm.wf && imm.fits w
  | .movRegImm w _ imm => imm.fits w
  | .movAccMem _ _ => true
  | .movMemAcc _ _ => true
  | .addRmReg _ _ _ rm => rm.wf
  | .addRmImm s w rm imm => rm.wf && imm.fitsGroup s w
  | .addAccImm w imm => imm.fits w
  | .subRmReg _ _ _ rm => rm.wf
  | .subRmImm s w rm imm => rm.wf && imm.fitsGroup s w
  | .subAccImm w imm => imm.fits w
  | .cmpRmReg _ _ _ rm => rm.wf
  | .cmpRmImm s w rm imm => rm.wf && imm.fitsGroup s w
  | .cmpAccImm w imm => imm.fits w
  | .jo _ => true
  | .jno _ => true
  | .jb _ => true
  | .jnb _ => true
  | .jz _ => true
  | .jnz _ => true
  | .jbe _ => true
  | .jnbe _ => true
  | .js _ => true
  | .jns _ => true
  | .jp _ => true
  | .jnp _ => true
  | .jl _ => true
  | .jnl _ => true
  | .jle _ => true
  | .jnle _ => true
  | .loopnz _ => true
  | .loopz _ => true
  | .loop _ => true
  | .jcxz _ => true

end Sys2Proof
end

