-- ==== Sys2Proof/Decode.lean ====
section
/-! DEFINITION. The decode state machine (spec/30_encoding.md R70 to R93): bit fields, displacement and immediate assembly,
`decode` on any byte list, the lengths of R83, and after them the encoder. The decoder reads the bytes from the
instruction's first byte on; `S[o], ..., S[L-1]` is its whole input. -/

namespace Sys2Proof

/-! ## Bit fields, byte order and sign extension -/

/-- `mod = b1[7:6]` (R71). -/
def fieldMod (b1 : Byte) : BitVec 2 := b1.extractLsb' 6 2

/-- `reg = b1[5:3]`, also the opcode extension `ext` (R71). -/
def fieldReg (b1 : Byte) : RegCode := b1.extractLsb' 3 3

/-- `rm = b1[2:0]` (R71). -/
def fieldRm (b1 : Byte) : BitVec 3 := b1.extractLsb' 0 3

/-- `d = b0[1]` (R71, R72). -/
def fieldD (b0 : Byte) : Dir := if b0.getLsbD 1 then .toReg else .toRm

/-- `s = b0[1]` of the group 80-83 (R71, R74). -/
def fieldS (b0 : Byte) : Bool := b0.getLsbD 1

/-- `w = b0[0]` (R71, R73). -/
def fieldW (b0 : Byte) : Width := if b0.getLsbD 0 then .word else .byte

/-- `w = b0[3]`, in MOV immediate to register alone (R71, 90_conflicts.md C2). -/
def fieldWRegImm (b0 : Byte) : Width := if b0.getLsbD 3 then .word else .byte

/-- The register code `b0[2:0]` of MOV immediate to register (R71). -/
def fieldRegImm (b0 : Byte) : RegCode := b0.extractLsb' 0 3

/-- `sext_16` (R9). -/
def sext16 (v : Byte) : Word := v.signExtend 16

/-- `hi:lo` of two bytes (R8); the low byte comes first in the stream and lies at the lower address (R55, R56). -/
def wordOf (lo hi : Byte) : Word := hi ++ lo

/-- `v[7:0]`. -/
def lowByte (v : Word) : Byte := v.extractLsb' 0 8

/-- `v[15:8]`. -/
def highByte (v : Word) : Byte := v.extractLsb' 8 8

/-- The base expression of an rm code (R77). -/
def BaseExpr.ofCode (rm : BitVec 3) : BaseExpr :=
  match rm.toNat with
  | 0 => .bxSi
  | 1 => .bxDi
  | 2 => .bpSi
  | 3 => .bpDi
  | 4 => .si
  | 5 => .di
  | 6 => .bp
  | _ => .bx

/-- The rm code of a base expression (R77). -/
def BaseExpr.code : BaseExpr → BitVec 3
  | .bxSi => 0
  | .bxDi => 1
  | .bpSi => 2
  | .bpDi => 3
  | .si => 4
  | .di => 5
  | .bp => 6
  | .bx => 7

/-- The bytes of a word in stream order, low byte first (R56). -/
def wordBytes (v : Word) : List Byte := [lowByte v, highByte v]

/-! ## Lengths -/

/-- `displacement_size(mod, rm)` (R79). -/
def displacementSize (mod : BitVec 2) (rm : BitVec 3) : Nat :=
  match mod.toNat with
  | 0 => if rm = 6 then 2 else 0
  | 1 => 1
  | 2 => 2
  | _ => 0

/-- The displacement or address bytes that follow the modrm byte of this operand (R79). -/
def RmOperand.displacementBytes : RmOperand → Nat
  | .reg _ => 0
  | .direct _ => 2
  | .ind _ => 0
  | .ind8 _ _ => 1
  | .ind16 _ _ => 2

/-- The immediate bytes of the group 80-83 (R83, row GRP). -/
def groupImmBytes (s : Bool) (w : Width) : Nat :=
  match s, w with
  | false, .word => 2
  | _, _ => 1

/-- The instruction's length in bytes, by format (R83). -/
def Instr.length : Instr → Nat
  | .movRmReg _ _ _ rm => 2 + rm.displacementBytes
  | .movRmImm w rm _ => 2 + rm.displacementBytes + w.bytes
  | .movRegImm w _ _ => 1 + w.bytes
  | .movAccMem _ _ => 3
  | .movMemAcc _ _ => 3
  | .addRmReg _ _ _ rm => 2 + rm.displacementBytes
  | .addRmImm s w rm _ => 2 + rm.displacementBytes + groupImmBytes s w
  | .addAccImm w _ => 1 + w.bytes
  | .subRmReg _ _ _ rm => 2 + rm.displacementBytes
  | .subRmImm s w rm _ => 2 + rm.displacementBytes + groupImmBytes s w
  | .subAccImm w _ => 1 + w.bytes
  | .cmpRmReg _ _ _ rm => 2 + rm.displacementBytes
  | .cmpRmImm s w rm _ => 2 + rm.displacementBytes + groupImmBytes s w
  | .cmpAccImm w _ => 1 + w.bytes
  | .jo _ => 2
  | .jno _ => 2
  | .jb _ => 2
  | .jnb _ => 2
  | .jz _ => 2
  | .jnz _ => 2
  | .jbe _ => 2
  | .jnbe _ => 2
  | .js _ => 2
  | .jns _ => 2
  | .jp _ => 2
  | .jnp _ => 2
  | .jl _ => 2
  | .jnl _ => 2
  | .jle _ => 2
  | .jnle _ => 2
  | .loopnz _ => 2
  | .loopz _ => 2
  | .loop _ => 2
  | .jcxz _ => 2

/-! ## Decoding -/

/-- Why the decoder rejects (spec/60_exceptions.md R200 to R202). -/
inductive DecodeError where
  /-- The bytes match no form; the bytes consumed up to and including the one that failed (R204). -/
  | unrecognizedOpcode (consumed : List Byte)
  /-- A matched form needs a byte at an offset ≥ L. -/
  | truncatedInstruction
  deriving DecidableEq, Repr

/-- A decoding step: a value and the bytes after it, or the first check that fails (R207). -/
abbrev Decoded (α : Type) := Except DecodeError (α × List Byte)

/-- `next()` (R87), once. -/
def nextByte : List Byte → Decoded Byte
  | [] => .error .truncatedInstruction
  | b :: r => .ok (b, r)

/-- `next()` twice, low byte first (R56). -/
def nextWord : List Byte → Decoded Word
  | lo :: hi :: r => .ok (wordOf lo hi, r)
  | _ => .error .truncatedInstruction

/-- `rm_operand(mod, rm, w)` (R86). The width is in the instruction beside it. -/
def decodeRm (mod : BitVec 2) (rm : BitVec 3) (bs : List Byte) : Decoded RmOperand :=
  match mod.toNat with
  | 0 =>
    if rm = 6 then
      match nextWord bs with
      | .ok (a, r) => .ok (.direct a, r)
      | .error e => .error e
    else .ok (.ind (BaseExpr.ofCode rm), bs)
  | 1 =>
    match nextByte bs with
    | .ok (d, r) => .ok (.ind8 (BaseExpr.ofCode rm) d, r)
    | .error e => .error e
  | 2 =>
    match nextWord bs with
    | .ok (d, r) => .ok (.ind16 (BaseExpr.ofCode rm) d, r)
    | .error e => .error e
  | _ => .ok (.reg rm, bs)

/-- An immediate of `n` bytes, 1 or 2 (`imm(w)` of R86). -/
def decodeImm (n : Nat) (bs : List Byte) : Decoded Imm :=
  match n with
  | 2 =>
    match nextWord bs with
    | .ok (v, r) => .ok (.imm16 v, r)
    | .error e => .error e
  | _ =>
    match nextByte bs with
    | .ok (v, r) => .ok (.imm8 v, r)
    | .error e => .error e

/-- Format RM (R83, R86): `mk` names the operation. -/
def decodeRmReg (mk : Dir → Width → RegCode → RmOperand → Instr) (b0 : Byte) : List Byte → Decoded Instr
  | [] => .error .truncatedInstruction
  | b1 :: r =>
    match decodeRm (fieldMod b1) (fieldRm b1) r with
    | .ok (rm, r') => .ok (mk (fieldD b0) (fieldW b0) (fieldReg b1) rm, r')
    | .error e => .error e

/-- An r/m operand and then `n` immediate bytes (formats RMI and GRP). -/
def decodeRmImm (mk : RmOperand → Imm → Instr) (b1 : Byte) (n : Nat) (bs : List Byte) : Decoded Instr :=
  match decodeRm (fieldMod b1) (fieldRm b1) bs with
  | .error e => .error e
  | .ok (rm, r) =>
    match decodeImm n r with
    | .ok (v, r') => .ok (mk rm v, r')
    | .error e => .error e

/-- Format RMI, C6 and C7: b1[5:3] must be 000 (R90). -/
def decodeMovRmImm (b0 : Byte) : List Byte → Decoded Instr
  | [] => .error .truncatedInstruction
  | b1 :: r =>
    if fieldReg b1 = 0 then decodeRmImm (.movRmImm (fieldW b0)) b1 (fieldW b0).bytes r
    else .error (.unrecognizedOpcode [b0, b1])

/-- The operation of the immediate group 80-83 by its extension: 000 ADD, 101 SUB, 111 CMP, no other (R86, R90). -/
def groupOp (ext : BitVec 3) : Option (Bool → Width → RmOperand → Imm → Instr) :=
  match ext.toNat with
  | 0 => some .addRmImm
  | 5 => some .subRmImm
  | 7 => some .cmpRmImm
  | _ => none

/-- Format GRP, 80 to 83 (R86). -/
def decodeGroup (b0 : Byte) : List Byte → Decoded Instr
  | [] => .error .truncatedInstruction
  | b1 :: r =>
    match groupOp (fieldReg b1) with
    | some mk => decodeRmImm (mk (fieldS b0) (fieldW b0)) b1 (groupImmBytes (fieldS b0) (fieldW b0)) r
    | none => .error (.unrecognizedOpcode [b0, b1])

/-- Formats RI and AI: b0 and then the immediate (R86). -/
def decodeImmOnly (mk : Imm → Instr) (w : Width) (bs : List Byte) : Decoded Instr :=
  match decodeImm w.bytes bs with
  | .ok (v, r) => .ok (mk v, r)
  | .error e => .error e

/-- Format AM: b0 and then a 16-bit address, whatever w is (R86, 90_conflicts.md C11). -/
def decodeAccMem (mk : Width → Word → Instr) (b0 : Byte) (bs : List Byte) : Decoded Instr :=
  match nextWord bs with
  | .ok (a, r) => .ok (mk (fieldW b0) a, r)
  | .error e => .error e

/-- Format J8: b0 and then rel8 (R86). -/
def decodeRel (mk : Byte → Instr) (bs : List Byte) : Decoded Instr :=
  match nextByte bs with
  | .ok (rel, r) => .ok (mk rel, r)
  | .error e => .error e

/-- The conditional jump with condition code `cc = b0[3:0]` (spec/42_jcc_loop.md R163 to R178). -/
def jccOf (cc : BitVec 4) : Byte → Instr :=
  match cc.toNat with
  | 0x0 => .jo
  | 0x1 => .jno
  | 0x2 => .jb
  | 0x3 => .jnb
  | 0x4 => .jz
  | 0x5 => .jnz
  | 0x6 => .jbe
  | 0x7 => .jnbe
  | 0x8 => .js
  | 0x9 => .jns
  | 0xA => .jp
  | 0xB => .jnp
  | 0xC => .jl
  | 0xD => .jnl
  | 0xE => .jle
  | _ => .jnle

/-- The loop-family instruction of kind `k = b0[1:0]` (R179 to R183). -/
def loopOf (k : BitVec 2) : Byte → Instr :=
  match k.toNat with
  | 0 => .loopnz
  | 1 => .loopz
  | 2 => .loop
  | _ => .jcxz

/-- The form that the first byte selects (R84, R86), tested in the order of R86; the patterns are disjoint, so any order
gives the same result (R85). -/
def decodeForm (b0 : Byte) (r : List Byte) : Decoded Instr :=
  if b0 &&& 0xFC = 0x88 then decodeRmReg .movRmReg b0 r
  else if b0 &&& 0xFC = 0x00 then decodeRmReg .addRmReg b0 r
  else if b0 &&& 0xFC = 0x28 then decodeRmReg .subRmReg b0 r
  else if b0 &&& 0xFC = 0x38 then decodeRmReg .cmpRmReg b0 r
  else if b0 &&& 0xFE = 0xC6 then decodeMovRmImm b0 r
  else if b0 &&& 0xFC = 0x80 then decodeGroup b0 r
  else if b0 &&& 0xF0 = 0xB0 then decodeImmOnly (.movRegImm (fieldWRegImm b0) (fieldRegImm b0)) (fieldWRegImm b0) r
  else if b0 &&& 0xFE = 0xA0 then decodeAccMem .movAccMem b0 r
  else if b0 &&& 0xFE = 0xA2 then decodeAccMem .movMemAcc b0 r
  else if b0 &&& 0xFE = 0x04 then decodeImmOnly (.addAccImm (fieldW b0)) (fieldW b0) r
  else if b0 &&& 0xFE = 0x2C then decodeImmOnly (.subAccImm (fieldW b0)) (fieldW b0) r
  else if b0 &&& 0xFE = 0x3C then decodeImmOnly (.cmpAccImm (fieldW b0)) (fieldW b0) r
  else if b0 &&& 0xF0 = 0x70 then decodeRel (jccOf (b0.extractLsb' 0 4)) r
  else if b0 &&& 0xFC = 0xE0 then decodeRel (loopOf (b0.extractLsb' 0 2)) r
  else .error (.unrecognizedOpcode [b0])

/-- `decode(o)` (R86), on the bytes `S[o], ..., S[L-1]`: the instruction and the bytes after it, or the first check that
fails. A step starts only with a byte present (R99), so the empty list is met only in states no run reaches (log
entry 7). -/
def decode : List Byte → Decoded Instr
  | [] => .error .truncatedInstruction
  | b0 :: r => decodeForm b0 r

/-! ## Encoding -/

/-- The bit of `d`. -/
def Dir.bit : Dir → BitVec 1
  | .toRm => 0
  | .toReg => 1

/-- The bit of `w`. -/
def Width.bit : Width → BitVec 1
  | .byte => 0
  | .word => 1

/-- The modrm byte `mod reg rm` (R71). -/
def modRm (mod : BitVec 2) (reg rm : BitVec 3) : Byte := mod ++ reg ++ rm

/-- The modrm byte with this reg field, and the displacement bytes (R79, R80). -/
def RmOperand.encode (reg : BitVec 3) : RmOperand → List Byte
  | .reg code => [modRm 3 reg code]
  | .direct addr => modRm 0 reg 6 :: wordBytes addr
  | .ind b => [modRm 0 reg b.code]
  | .ind8 b disp => [modRm 1 reg b.code, disp]
  | .ind16 b disp => modRm 2 reg b.code :: wordBytes disp

/-- The immediate bytes, low byte first (R82). -/
def Imm.encode : Imm → List Byte
  | .imm8 v => [v]
  | .imm16 v => wordBytes v

/-- `oooooo d w` (R83). -/
def opcodeDW (o : BitVec 6) (d : Dir) (w : Width) : Byte := o ++ d.bit ++ w.bit

/-- `oooooo s w` (R83). -/
def opcodeSW (o : BitVec 6) (s : Bool) (w : Width) : Byte := o ++ BitVec.ofBool s ++ w.bit

/-- `ooooooo w` (R83). -/
def opcodeW (o : BitVec 7) (w : Width) : Byte := o ++ w.bit

/-- The bytes of a well-formed instruction in stream order (R83, R84). -/
def encode : Instr → List Byte
  | .movRmReg d w reg rm => opcodeDW 0b100010 d w :: rm.encode reg
  | .movRmImm w rm imm => opcodeW 0b1100011 w :: (rm.encode 0b000 ++ imm.encode)
  | .movRegImm w reg imm => (0b1011#4 ++ w.bit ++ reg) :: imm.encode
  | .movAccMem w addr => opcodeW 0b1010000 w :: wordBytes addr
  | .movMemAcc w addr => opcodeW 0b1010001 w :: wordBytes addr
  | .addRmReg d w reg rm => opcodeDW 0b000000 d w :: rm.encode reg
  | .addRmImm s w rm imm => opcodeSW 0b100000 s w :: (rm.encode 0b000 ++ imm.encode)
  | .addAccImm w imm => opcodeW 0b0000010 w :: imm.encode
  | .subRmReg d w reg rm => opcodeDW 0b001010 d w :: rm.encode reg
  | .subRmImm s w rm imm => opcodeSW 0b100000 s w :: (rm.encode 0b101 ++ imm.encode)
  | .subAccImm w imm => opcodeW 0b0010110 w :: imm.encode
  | .cmpRmReg d w reg rm => opcodeDW 0b001110 d w :: rm.encode reg
  | .cmpRmImm s w rm imm => opcodeSW 0b100000 s w :: (rm.encode 0b111 ++ imm.encode)
  | .cmpAccImm w imm => opcodeW 0b0011110 w :: imm.encode
  | .jo rel => [0x70, rel]
  | .jno rel => [0x71, rel]
  | .jb rel => [0x72, rel]
  | .jnb rel => [0x73, rel]
  | .jz rel => [0x74, rel]
  | .jnz rel => [0x75, rel]
  | .jbe rel => [0x76, rel]
  | .jnbe rel => [0x77, rel]
  | .js rel => [0x78, rel]
  | .jns rel => [0x79, rel]
  | .jp rel => [0x7A, rel]
  | .jnp rel => [0x7B, rel]
  | .jl rel => [0x7C, rel]
  | .jnl rel => [0x7D, rel]
  | .jle rel => [0x7E, rel]
  | .jnle rel => [0x7F, rel]
  | .loopnz rel => [0xE0, rel]
  | .loopz rel => [0xE1, rel]
  | .loop rel => [0xE2, rel]
  | .jcxz rel => [0xE3, rel]

/-! ## The opcode table's numbering -/

/-- The value matches one of the table's rows of 16 bits, C6/C7 or 80-83, read as R84 reads them:
`(((b0 << 8) OR b1) AND mask) = match`. -/
def matchesWideRow (v : Word) : Bool :=
  v &&& 0xFE38 = 0xC600 || v &&& 0xFC38 = 0x8000 || v &&& 0xFC38 = 0x8028 || v &&& 0xFC38 = 0x8038

/-- The stream bytes of an instruction whose bits are `w` as spec/opcode_table.json numbers them, followed by zero bytes
up to the longest instruction. The table writes its rows of 16 bits with b0 as the HIGH byte (R84); every other value is
laid out from its low byte up (log entry 8). -/
def tableBytes (nbits w : Nat) : List Byte :=
  let byteAt (k : Nat) : Byte := if 8 * k < nbits then BitVec.ofNat 8 (w / 256 ^ k) else 0
  if nbits = 16 && matchesWideRow (BitVec.ofNat 16 w) then [byteAt 1, byteAt 0, 0, 0, 0, 0]
  else [byteAt 0, byteAt 1, byteAt 2, byteAt 3, byteAt 4, byteAt 5]

/-- The instruction the decoder reads from a word of the opcode table, or none where it rejects it. -/
def decodeTableWord (nbits w : Nat) : Option Instr :=
  match decode (tableBytes nbits w) with
  | .ok (i, _) => some i
  | .error _ => none

end Sys2Proof
end

