-- ==== Sys2Proof/Machine/State.lean ====
section
/-! DEFINITION. The state of the block (spec/10_state.md R20 to R44) as plain data, the reasons a step or a launch can stop,
the launch with the host's inputs and `State.reset`. -/

namespace Sys2Proof.Machine

/-- The mode latch `MODE` (R42), a launch input. -/
inductive Mode where
  | execute
  | decodeOnly
  deriving DecidableEq, Repr

/-- The run status (R40). -/
inductive Status where
  | running
  | ended
  | faulted
  deriving DecidableEq, Repr

/-- The fault causes (spec/60_exceptions.md R200). A cause ends the current step with no architectural change (R12); the
step that meets one answers a NEXT state, the block FAULTED with its fault record (R206), so `step` itself never answers
`.fault` (log entry 2). -/
inductive Fault where
  /-- Raised by the decoder on bytes that match no form (R201). Safe: the spec names this stop. -/
  | unrecognizedOpcode
  /-- Raised by the decoder when a form needs a byte at an offset ≥ L (R202). Safe: the spec names this stop. -/
  | truncatedInstruction
  /-- Raised by a write to an immediate operand, which no decoded instruction asks for (R203). Safe: the spec names it. -/
  | invalidOperandCombination
  deriving DecidableEq, Repr

/-- Where the model gives no next state. Neither is answered by a step that runs a modelled instruction. -/
inductive Refusal where
  /-- Raised by `exec` for an instruction that has no meaning yet; no arm does so. Safe. -/
  | notModelled (mnemonic : String)
  /-- Raised by `State.launch` for a stream longer than 65535 bytes, which the spec refuses at launch
  (93_implementation_defined.md I4). Safe. -/
  | streamTooLong
  deriving DecidableEq, Repr

/-- Data memory (R38): (address, byte) pairs in the canonical form of `Memory.wf`. -/
abbrev Memory := List Host.Cell

/-- The eight general registers in the order of their codes (R20). Their 8-bit halves are views (R21, R22). -/
structure Regs where
  ax : Word
  cx : Word
  dx : Word
  bx : Word
  sp : Word
  bp : Word
  si : Word
  di : Word
  deriving DecidableEq, Repr

/-- The fault record `(cause, offset, bytes)` (R41, R204). -/
structure FaultRecord where
  cause : Fault
  offset : Word
  bytes : List Byte
  deriving DecidableEq, Repr

/-- The decoded instruction record (spec/30_encoding.md R88). The form and its raw fields are `instr`. -/
structure Record where
  op : Op
  instr : Instr
  dst : Option Operand
  src : Option Operand
  rel : Option Word
  offsetBegin : Word
  offsetEnd : Word
  bytes : List Byte
  deriving DecidableEq, Repr

/-- One register entry of a trace record: the 16-bit register, before and after (R214). -/
structure RegChange where
  reg : RegCode
  before : Word
  after : Word
  deriving DecidableEq, Repr

/-- The flags entry of a trace record: the whole flags word, before and after (R214). -/
structure FlagsChange where
  before : Word
  after : Word
  deriving DecidableEq, Repr

/-- One memory entry of a trace record: the byte's address, before and after (R214). -/
structure ByteChange where
  addr : Word
  before : Byte
  after : Byte
  deriving DecidableEq, Repr

/-- What a trace record of EXECUTE mode holds beside the decoded record (R214). -/
structure Effects where
  ipBefore : Word
  ipAfter : Word
  regs : List RegChange
  flags : Option FlagsChange
  bytes : List ByteChange
  deriving DecidableEq, Repr

/-- One trace record (R43, R214). `effects` is none in DECODE_ONLY mode (R97). -/
structure TraceRecord where
  record : Record
  effects : Option Effects
  deriving DecidableEq, Repr

/-- The whole state of the block. The stream length `L` (R42) is `stream.length` (log entry 5). -/
structure State where
  /-- The general registers (R20). -/
  regs : Regs
  /-- The instruction pointer, an offset into the stream (R24). -/
  ip : Word
  /-- The flags word (R27). -/
  flags : Word
  /-- Data memory `M` (R38). -/
  mem : Memory
  /-- The stream `S`, read-only (R39). -/
  stream : List Byte
  /-- `MODE` (R42). -/
  mode : Mode
  /-- The run status (R40). -/
  status : Status
  /-- The fault record, none unless FAULTED (R41). -/
  fault : Option FaultRecord
  /-- The number of retirements (R43). -/
  retired : Nat
  /-- The trace records emitted since reset, oldest first (R43; log entry 6). -/
  trace : List TraceRecord
  deriving DecidableEq, Repr

/-- The state right after a reset with these launch inputs (R44, spec/70_reset_and_hazards.md R230 to R232): RUNNING at
offset 0, or ENDED at once when the stream is empty (R99). -/
def State.launched (stream : List Byte) (mode : Mode) : State where
  regs := ⟨0, 0, 0, 0, 0, 0, 0, 0⟩
  ip := 0
  flags := 0
  mem := []
  stream := stream
  mode := mode
  status := if stream.length = 0 then .ended else .running
  fault := none
  retired := 0
  trace := []

/-- A reset by the host with its launch inputs, from any status (R230, R232); a stream over 65535 bytes is refused
(R6, I4). -/
def State.launch (stream : List Byte) (mode : Mode) : Host.Outcome State Fault Refusal :=
  if stream.length ≤ Config.maxStream then .next (.launched stream mode) else .refused .streamTooLong

/-- The machine right after a reset. The launch inputs are the host's: DESIGN CHOICE, log entry 3, the empty stream and
EXECUTE mode, so that nothing is invented. -/
def State.reset : State := State.launched [] .execute

end Sys2Proof.Machine
end

