-- ==== Sys2Proof/Machine/Flags.lean ====
section
/-! DEFINITION. The flags register (spec/10_state.md R27 to R34) and every flag computation the spec gives
(spec/41_add_sub_cmp.md R130 to R133). -/

namespace Sys2Proof.Machine

/-- The six implemented flags (R27). -/
structure Flags where
  cf : Bool
  pf : Bool
  af : Bool
  zf : Bool
  sf : Bool
  of : Bool
  deriving DecidableEq, Repr

/-- The flags word of six flags: CF bit 0, PF bit 2, AF bit 4, ZF bit 6, SF bit 7, OF bit 11, every other bit 0
(R27, R133). -/
def Flags.toWord (f : Flags) : Word :=
  let bit (b : Bool) (k : Nat) : Word := if b then BitVec.twoPow 16 k else 0
  bit f.cf 0 ||| bit f.pf 2 ||| bit f.af 4 ||| bit f.zf 6 ||| bit f.sf 7 ||| bit f.of 11

/-- The bits of the flags word that are not implemented: 1, 3, 5, 8, 9, 10 and 12 to 15 (R27). -/
def Flags.reservedMask : Word := 0xF72A

/-- FLAGS.CF (R28). -/
def State.cf (s : State) : Bool := s.flags.getLsbD 0

/-- FLAGS.PF (R29). -/
def State.pf (s : State) : Bool := s.flags.getLsbD 2

/-- FLAGS.AF (R30). -/
def State.af (s : State) : Bool := s.flags.getLsbD 4

/-- FLAGS.ZF (R31). -/
def State.zf (s : State) : Bool := s.flags.getLsbD 6

/-- FLAGS.SF (R32). -/
def State.sf (s : State) : Bool := s.flags.getLsbD 7

/-- FLAGS.OF (R33). -/
def State.of (s : State) : Bool := s.flags.getLsbD 11

/-- `FLAGS <- F` (R133). -/
def State.setFlags (s : State) (f : Flags) : State := { s with flags := f.toWord }

/-- The low byte has an even number of 1 bits (R29, 90_conflicts.md C4). -/
def parityEven {n : Nat} (r : BitVec n) : Bool := (List.range 8).countP (fun k => r.getLsbD k) % 2 == 0

/-- A result with its six flags. -/
structure AluResult (n : Nat) where
  value : BitVec n
  flags : Flags

/-- `AddFlags(a, b, n)` (R131). -/
def addFlags {n : Nat} (a b : BitVec n) : AluResult n :=
  let r := a + b
  { value := r
    flags :=
      { cf := decide (2 ^ n ≤ a.toNat + b.toNat)
        pf := parityEven r
        af := (a ^^^ b ^^^ r).getLsbD 4
        zf := decide (r = 0)
        sf := r.msb
        of := ((a ^^^ r) &&& (b ^^^ r)).msb } }

/-- `SubFlags(a, b, n)` (R132). -/
def subFlags {n : Nat} (a b : BitVec n) : AluResult n :=
  let r := a - b
  { value := r
    flags :=
      { cf := decide (a.toNat < b.toNat)
        pf := parityEven r
        af := (a ^^^ b ^^^ r).getLsbD 4
        zf := decide (r = 0)
        sf := r.msb
        of := ((a ^^^ b) &&& (a ^^^ r)).msb } }

end Sys2Proof.Machine
end

