-- ==== Sys2Proof/Machine/Ops.lean ====
section
/-! DEFINITION. The named operations over registers, data memory, `ip` and the stream, and taking a fault. The spec gives
the block no return from a fault (spec/60_exceptions.md R208): only a reset, `State.launch`, leaves FAULTED. -/

namespace Sys2Proof.Machine

/-! ## General registers -/

/-- `x[c]` (R10, R20). -/
def Regs.get (r : Regs) (c : RegCode) : Word :=
  match c.toNat with
  | 0 => r.ax
  | 1 => r.cx
  | 2 => r.dx
  | 3 => r.bx
  | 4 => r.sp
  | 5 => r.bp
  | 6 => r.si
  | _ => r.di

/-- `x[c] <- v` (R10, R20). -/
def Regs.set (r : Regs) (c : RegCode) (v : Word) : Regs :=
  match c.toNat with
  | 0 => { r with ax := v }
  | 1 => { r with cx := v }
  | 2 => { r with dx := v }
  | 3 => { r with bx := v }
  | 4 => { r with sp := v }
  | 5 => { r with bp := v }
  | 6 => { r with si := v }
  | _ => { r with di := v }

/-- `x[c]`. -/
def State.x (s : State) (c : RegCode) : Word := s.regs.get c

/-- `x[c] <- v`. -/
def State.setX (s : State) (c : RegCode) (v : Word) : State := { s with regs := s.regs.set c v }

/-- `x8[c]`: the low half of `x[c]` for c < 4, the high half of `x[c-4]` for the others (R21). -/
def State.x8 (s : State) (c : RegCode) : Byte :=
  if c < 4 then lowByte (s.x c) else highByte (s.x (c - 4))

/-- `x8[c] <- v`: the other half keeps its value (R22). -/
def State.setX8 (s : State) (c : RegCode) (v : Byte) : State :=
  if c < 4 then s.setX c (wordOf v (highByte (s.x c))) else s.setX (c - 4) (wordOf (lowByte (s.x (c - 4))) v)

/-- `reg(w, c)` (R10, R75). -/
def State.readReg (s : State) (w : Width) (c : RegCode) : BitVec w.bits :=
  match w with
  | .byte => s.x8 c
  | .word => s.x c

/-- `reg(w, c) <- v` (R10, R22). -/
def State.writeReg (s : State) (w : Width) (c : RegCode) (v : BitVec w.bits) : State :=
  match w with
  | .byte => s.setX8 c v
  | .word => s.setX c v

/-- The code of the 16-bit register that `reg(w, c)` is stored in (R21). -/
def containing (w : Width) (c : RegCode) : RegCode :=
  match w with
  | .byte => if c < 4 then c else c - 4
  | .word => c

/-! ## Data memory -/

/-- The byte at an address; an address that is not listed reads as 0 (R38, R60). -/
def Memory.read : Memory → Nat → Byte
  | [], _ => Config.unwrittenByte
  | (k, v) :: m, a => if a = k then v else Memory.read m a

/-- The memory with byte `v` at the front, in canonical form. -/
def Memory.cons (a : Nat) (v : Byte) (m : Memory) : Memory :=
  if v = Config.unwrittenByte then m else (a, v) :: m

/-- Writes one byte and keeps the canonical form (R53). -/
def Memory.write : Memory → Nat → Byte → Memory
  | [], a, v => Memory.cons a v []
  | (k, u) :: m, a, v =>
    if a < k then Memory.cons a v ((k, u) :: m)
    else if a = k then Memory.cons a v m
    else (k, u) :: Memory.write m a v

/-- The canonical form: addresses strictly rising, inside the capacity, and no entry equal to what an unlisted address
reads as. -/
abbrev Memory.wf (m : Memory) : Prop :=
  (m.map Prod.fst).Pairwise (· < ·) ∧ ∀ c ∈ m, c.1 < Config.memCapacity ∧ c.2 ≠ Config.unwrittenByte

/-- `MemRead(a, 1)` (R52). -/
def State.memByte (s : State) (a : Word) : Byte := s.mem.read a.toNat

/-- `MemWrite(a, 1, v)` (R53). -/
def State.setMemByte (s : State) (a : Word) (v : Byte) : State := { s with mem := s.mem.write a.toNat v }

/-- `MemRead(a, 1 + w)` (R52): a word's high byte is at `(a + 1) mod 2^16` (R54). -/
def State.memRead (s : State) (w : Width) (a : Word) : BitVec w.bits :=
  match w with
  | .byte => s.memByte a
  | .word => wordOf (s.memByte a) (s.memByte (a + 1))

/-- `MemWrite(a, 1 + w, v)` (R53, R54). -/
def State.memWrite (s : State) (w : Width) (a : Word) (v : BitVec w.bits) : State :=
  match w with
  | .byte => s.setMemByte a v
  | .word => (s.setMemByte a (lowByte v)).setMemByte (a + 1) (highByte v)

/-- The addresses of the bytes of an access of this width at `a`, low byte first (R52, R54). -/
def accessBytes (w : Width) (a : Word) : List Word :=
  match w with
  | .byte => [a]
  | .word => [a, a + 1]

/-! ## The instruction pointer and the stream -/

/-- `I.end` of an instruction of this length at `ip` (R83, R88). -/
def State.endOf (s : State) (i : Instr) : Word := s.ip + BitVec.ofNat 16 i.length

/-- `ip <- I.end` (R160). `fin` is `I.end`, taken before the instruction's writes. -/
def State.setIp (s : State) (fin : Word) : State := { s with ip := fin }

/-- The taken target `(I.end + sext_16(rel8)) mod 2^16` (R161). -/
def branchTarget (fin : Word) (rel : Byte) : Word := fin + sext16 rel

/-- `ip` after a J8 instruction (R160, R161). -/
def State.branch (s : State) (taken : Bool) (fin : Word) (rel : Byte) : State :=
  s.setIp (if taken then branchTarget fin rel else fin)

/-- The stream bytes from `ip` on, `S[ip], ..., S[L-1]` (R58, R87). -/
def State.fetchBytes (s : State) : List Byte := s.stream.drop s.ip.toNat

/-- The bytes of instruction `i` at `ip`: `bytes` of its record (R88). -/
def State.consumed (s : State) (i : Instr) : List Byte := s.fetchBytes.take i.length

/-! ## Taking a fault -/

/-- The numeric code of a cause (R200). -/
def Fault.code : Fault → Nat
  | .unrecognizedOpcode => 1
  | .truncatedInstruction => 2
  | .invalidOperandCombination => 3

/-- Fault entry (R206): FAULTED with the record, and no register, flag, memory byte, `ip`, `retired` or trace record
changes. -/
def State.raise (s : State) (c : Fault) (bytes : List Byte) : State :=
  { s with status := .faulted, fault := some ⟨c, s.ip, bytes⟩ }

/-- The cause of a decode failure (R200). -/
def causeOf : DecodeError → Fault
  | .unrecognizedOpcode _ => .unrecognizedOpcode
  | .truncatedInstruction => .truncatedInstruction

/-- The bytes of the fault record (R204): those consumed for UnrecognizedOpcode, all that are left for
TruncatedInstruction. -/
def State.faultBytes (s : State) : DecodeError → List Byte
  | .unrecognizedOpcode consumed => consumed
  | .truncatedInstruction => s.fetchBytes

/-- Fault entry for a decode failure at `ip` (R206). -/
def State.raiseDecode (s : State) (e : DecodeError) : State := s.raise (causeOf e) (s.faultBytes e)

/-- What an instruction answers, and every shared operation that may fault. -/
abbrev Result := Host.Outcome State Fault Refusal

/-- Goes on from a next state; a fault or a refusal stays what it is. -/
def onNext (o : Result) (f : State → State) : Result :=
  match o with
  | .next t => .next (f t)
  | .fault c => .fault c
  | .refused r => .refused r

end Sys2Proof.Machine
end

