-- ==== Sys2Proof/Machine/Operands.lean ====
section
/-! DEFINITION. The operand resolver (spec/30_encoding.md R75 to R82), `ReadOp` and `WriteOp` (R94, R95), and the decoded
record of an instruction (R88). -/

namespace Sys2Proof.Machine

/-! ## Resolving operands -/

/-- The r/m operand (R76 to R80): a displacement byte is sign-extended, and none is 0. -/
def rmOperand (w : Width) : RmOperand → Operand
  | .reg code => .reg w code
  | .direct addr => .memDirect addr
  | .ind b => .memIndexed b 0
  | .ind8 b disp => .memIndexed b (sext16 disp)
  | .ind16 b disp => .memIndexed b disp

/-- The destination of a register/memory form (R72). -/
def rmRegDst (d : Dir) (w : Width) (reg : RegCode) (rm : RmOperand) : Operand :=
  match d with
  | .toRm => rmOperand w rm
  | .toReg => .reg w reg

/-- The source of a register/memory form (R72). -/
def rmRegSrc (d : Dir) (w : Width) (reg : RegCode) (rm : RmOperand) : Operand :=
  match d with
  | .toRm => .reg w reg
  | .toReg => rmOperand w rm

/-- The source of the group 80-83: a one-byte immediate is sign-extended when w = 1 and used as it is when w = 0, whatever
s is (R74, R82). -/
def groupSrc (w : Width) (imm : Imm) : Operand :=
  match w, imm with
  | .word, .imm8 v => .imm (.imm16 (sext16 v))
  | _, v => .imm v

/-- AL or AX, the operand `Reg(w, 0)` of the accumulator forms (R123, R137). -/
def accumulator (w : Width) : Operand := .reg w 0

/-! ## Effective addresses -/

/-- The base value of a base expression (R77). -/
def State.baseValue (s : State) : BaseExpr → Word
  | .bxSi => s.x 3 + s.x 6
  | .bxDi => s.x 3 + s.x 7
  | .bpSi => s.x 5 + s.x 6
  | .bpDi => s.x 5 + s.x 7
  | .si => s.x 6
  | .di => s.x 7
  | .bp => s.x 5
  | .bx => s.x 3

/-- The effective address (R81), none for an operand that is not in memory. -/
def State.ea (s : State) : Operand → Option Word
  | .reg _ _ => none
  | .memDirect a => some a
  | .memIndexed b disp => some (s.baseValue b + disp)
  | .imm _ => none

/-! ## Reading and writing operands -/

/-- An immediate at the width of its instruction. In a well-formed instruction the widths are equal (log entry 11). -/
def immValue (w : Width) : Imm → BitVec w.bits
  | .imm8 v => v.setWidth w.bits
  | .imm16 v => v.setWidth w.bits

/-- `ReadOp(op, w)` (R94). -/
def State.readOp (s : State) (w : Width) : Operand → BitVec w.bits
  | .reg _ c => s.readReg w c
  | .memDirect a => s.memRead w a
  | .memIndexed b disp => s.memRead w (s.baseValue b + disp)
  | .imm v => immValue w v

/-- `WriteOp(op, w, v)` (R95). An immediate destination is InvalidOperandCombination (R203). -/
def State.writeOp (s : State) (w : Width) (o : Operand) (v : BitVec w.bits) : Result :=
  match o with
  | .reg _ c => .next (s.writeReg w c v)
  | .memDirect a => .next (s.memWrite w a v)
  | .memIndexed b disp => .next (s.memWrite w (s.baseValue b + disp) v)
  | .imm _ => .fault .invalidOperandCombination

end Sys2Proof.Machine

namespace Sys2Proof

/-! ## The decoded record -/

/-- `op` of the record (R88). -/
def Instr.op : Instr → Op
  | .movRmReg _ _ _ _ => .mov
  | .movRmImm _ _ _ => .mov
  | .movRegImm _ _ _ => .mov
  | .movAccMem _ _ => .mov
  | .movMemAcc _ _ => .mov
  | .addRmReg _ _ _ _ => .add
  | .addRmImm _ _ _ _ => .add
  | .addAccImm _ _ => .add
  | .subRmReg _ _ _ _ => .sub
  | .subRmImm _ _ _ _ => .sub
  | .subAccImm _ _ => .sub
  | .cmpRmReg _ _ _ _ => .cmp
  | .cmpRmImm _ _ _ _ => .cmp
  | .cmpAccImm _ _ => .cmp
  | .jo _ => .jcc 0x0
  | .jno _ => .jcc 0x1
  | .jb _ => .jcc 0x2
  | .jnb _ => .jcc 0x3
  | .jz _ => .jcc 0x4
  | .jnz _ => .jcc 0x5
  | .jbe _ => .jcc 0x6
  | .jnbe _ => .jcc 0x7
  | .js _ => .jcc 0x8
  | .jns _ => .jcc 0x9
  | .jp _ => .jcc 0xA
  | .jnp _ => .jcc 0xB
  | .jl _ => .jcc 0xC
  | .jnl _ => .jcc 0xD
  | .jle _ => .jcc 0xE
  | .jnle _ => .jcc 0xF
  | .loopnz _ => .loopk 0
  | .loopz _ => .loopk 1
  | .loop _ => .loopk 2
  | .jcxz _ => .loopk 3

/-- `w` of the forms that have it. -/
def Instr.width : Instr → Option Width
  | .movRmReg _ w _ _ => some w
  | .movRmImm w _ _ => some w
  | .movRegImm w _ _ => some w
  | .movAccMem w _ => some w
  | .movMemAcc w _ => some w
  | .addRmReg _ w _ _ => some w
  | .addRmImm _ w _ _ => some w
  | .addAccImm w _ => some w
  | .subRmReg _ w _ _ => some w
  | .subRmImm _ w _ _ => some w
  | .subAccImm w _ => some w
  | .cmpRmReg _ w _ _ => some w
  | .cmpRmImm _ w _ _ => some w
  | .cmpAccImm w _ => some w
  | .jo _ => none
  | .jno _ => none
  | .jb _ => none
  | .jnb _ => none
  | .jz _ => none
  | .jnz _ => none
  | .jbe _ => none
  | .jnbe _ => none
  | .js _ => none
  | .jns _ => none
  | .jp _ => none
  | .jnp _ => none
  | .jl _ => none
  | .jnl _ => none
  | .jle _ => none
  | .jnle _ => none
  | .loopnz _ => none
  | .loopz _ => none
  | .loop _ => none
  | .jcxz _ => none

/-- `dst` and `src` of the record (R86, R88). The J8 forms have none. -/
def Instr.operands : Instr → Option (Operand × Operand)
  | .movRmReg d w reg rm => some (Machine.rmRegDst d w reg rm, Machine.rmRegSrc d w reg rm)
  | .movRmImm w rm imm => some (Machine.rmOperand w rm, .imm imm)
  | .movRegImm w reg imm => some (.reg w reg, .imm imm)
  | .movAccMem w addr => some (Machine.accumulator w, .memDirect addr)
  | .movMemAcc w addr => some (.memDirect addr, Machine.accumulator w)
  | .addRmReg d w reg rm => some (Machine.rmRegDst d w reg rm, Machine.rmRegSrc d w reg rm)
  | .addRmImm _ w rm imm => some (Machine.rmOperand w rm, Machine.groupSrc w imm)
  | .addAccImm w imm => some (Machine.accumulator w, .imm imm)
  | .subRmReg d w reg rm => some (Machine.rmRegDst d w reg rm, Machine.rmRegSrc d w reg rm)
  | .subRmImm _ w rm imm => some (Machine.rmOperand w rm, Machine.groupSrc w imm)
  | .subAccImm w imm => some (Machine.accumulator w, .imm imm)
  | .cmpRmReg d w reg rm => some (Machine.rmRegDst d w reg rm, Machine.rmRegSrc d w reg rm)
  | .cmpRmImm _ w rm imm => some (Machine.rmOperand w rm, Machine.groupSrc w imm)
  | .cmpAccImm w imm => some (Machine.accumulator w, .imm imm)
  | .jo _ => none
  | .jno _ => none
  | .jb _ => none
  | .jnb _ => none
  | .jz _ => none
  | .jnz _ => none
  | .jbe _ => none
  | .jnbe _ => none
  | .js _ => none
  | .jns _ => none
  | .jp _ => none
  | .jnp _ => none
  | .jl _ => none
  | .jnl _ => none
  | .jle _ => none
  | .jnle _ => none
  | .loopnz _ => none
  | .loopz _ => none
  | .loop _ => none
  | .jcxz _ => none

/-- `rel8` of the J8 forms (R83). -/
def Instr.rel8 : Instr → Option Byte
  | .movRmReg _ _ _ _ => none
  | .movRmImm _ _ _ => none
  | .movRegImm _ _ _ => none
  | .movAccMem _ _ => none
  | .movMemAcc _ _ => none
  | .addRmReg _ _ _ _ => none
  | .addRmImm _ _ _ _ => none
  | .addAccImm _ _ => none
  | .subRmReg _ _ _ _ => none
  | .subRmImm _ _ _ _ => none
  | .subAccImm _ _ => none
  | .cmpRmReg _ _ _ _ => none
  | .cmpRmImm _ _ _ _ => none
  | .cmpAccImm _ _ => none
  | .jo rel => some rel
  | .jno rel => some rel
  | .jb rel => some rel
  | .jnb rel => some rel
  | .jz rel => some rel
  | .jnz rel => some rel
  | .jbe rel => some rel
  | .jnbe rel => some rel
  | .js rel => some rel
  | .jns rel => some rel
  | .jp rel => some rel
  | .jnp rel => some rel
  | .jl rel => some rel
  | .jnl rel => some rel
  | .jle rel => some rel
  | .jnle rel => some rel
  | .loopnz rel => some rel
  | .loopz rel => some rel
  | .loop rel => some rel
  | .jcxz rel => some rel

end Sys2Proof

namespace Sys2Proof.Machine

/-- The decoded record of instruction `i` at `ip` (R88). `rel` is the u16 `sext_16(rel8)`. -/
def State.recordOf (s : State) (i : Instr) : Record where
  op := i.op
  instr := i
  dst := i.operands.map Prod.fst
  src := i.operands.map Prod.snd
  rel := i.rel8.map sext16
  offsetBegin := s.ip
  offsetEnd := s.endOf i
  bytes := s.consumed i

end Sys2Proof.Machine
end

