-- ==== Sys2Proof/Machine/Cycle.lean ====
section
/-! DEFINITION. The step cycle (spec/30_encoding.md R96 to R99) over any `execute(I)`, the trace record
and the final observation (spec/60_exceptions.md R214, R215), and placing an instruction where the next step fetches it. -/

namespace Sys2Proof.Machine

/-! ## What an instruction writes -/

/-- The operand an instruction writes: `dst` of MOV, ADD and SUB; CMP writes none (R63, R141). -/
def writtenOperand (i : Instr) : Option Operand :=
  match i.op with
  | .mov => i.operands.map Prod.fst
  | .add => i.operands.map Prod.fst
  | .sub => i.operands.map Prod.fst
  | .cmp => none
  | .jcc _ => none
  | .loopk _ => none

/-- The general register an instruction writes, by its 16-bit code (R23, R214): the register destination, and CX for the
loop family but JCXZ. -/
def writtenRegs (i : Instr) : List RegCode :=
  match i.op with
  | .loopk k => if k = 3 then [] else [1]
  | _ =>
    match writtenOperand i with
    | some (.reg w c) => [containing w c]
    | _ => []

/-- The addresses of the memory bytes an instruction writes, from the state before it (R53, R95). -/
def State.writtenBytes (s : State) (i : Instr) : List Word :=
  match i.width, (writtenOperand i).bind s.ea with
  | some w, some a => accessBytes w a
  | _, _ => []

/-- ADD, SUB and CMP write the flags; nothing else does (R34). -/
def writesFlags (i : Instr) : Bool :=
  match i.op with
  | .add => true
  | .sub => true
  | .cmp => true
  | .mov => false
  | .jcc _ => false
  | .loopk _ => false

/-! ## Retirement -/

/-- The before and after values of everything the instruction writes (R214). -/
def effectsOf (i : Instr) (before after : State) : Effects where
  ipBefore := before.ip
  ipAfter := after.ip
  regs := (writtenRegs i).map fun c => ⟨c, before.x c, after.x c⟩
  flags := if writesFlags i then some ⟨before.flags, after.flags⟩ else none
  bytes := (before.writtenBytes i).map fun a => ⟨a, before.memByte a, after.memByte a⟩

/-- Counts the retirement, emits the trace record and ends the run when `ip ≥ L` (R43, R96, R99). -/
def State.retire (s : State) (r : TraceRecord) : State :=
  { s with
    retired := s.retired + 1
    trace := s.trace ++ [r]
    status := if s.stream.length ≤ s.ip.toNat then .ended else s.status }

/-! ## The final observation -/

/-- What the host may read once a run has stopped (spec/60_exceptions.md R215). -/
structure FinalView where
  regs : Regs
  flags : Word
  ip : Word
  status : Status
  fault : Option FaultRecord
  retired : Nat
  mem : Memory
  deriving DecidableEq, Repr

/-- The final observation (R215): none while RUNNING, when the host sees the trace records alone. -/
def State.finalView (s : State) : Option FinalView :=
  match s.status with
  | .running => none
  | .ended => some ⟨s.regs, s.flags, s.ip, s.status, s.fault, s.retired, s.mem⟩
  | .faulted => some ⟨s.regs, s.flags, s.ip, s.status, s.fault, s.retired, s.mem⟩

/-! ## The step cycle -/

/-- One step in status RUNNING once the instruction is decoded (R96, R97). A fault of the meaning is taken here: the state
is the one before the instruction (R12, R206). -/
def runDecoded (execute : Instr → State → Result) (i : Instr) (s : State) : Result :=
  match s.mode with
  | .decodeOnly => .next ((s.setIp (s.endOf i)).retire ⟨s.recordOf i, none⟩)
  | .execute =>
    match execute i s with
    | .next t => .next (t.retire ⟨s.recordOf i, some (effectsOf i s t)⟩)
    | .fault c => .next (s.raise c (s.consumed i))
    | .refused r => .refused r

/-- One step (R96): decode at `ip`, execute, retire. ENDED and FAULTED have no step and keep all state until reset
(R98; log entry 1). -/
def cycle (execute : Instr → State → Result) (s : State) : Result :=
  match s.status with
  | .ended => .next s
  | .faulted => .next s
  | .running =>
    match decode s.fetchBytes with
    | .error e => .next (s.raiseDecode e)
    | .ok (i, _) => runDecoded execute i s

/-! ## Placing an instruction -/

/-- Puts these bytes into the stream where the next step fetches, and makes that step run: RUNNING, EXECUTE, no fault
record. Where a stream of at most 65535 bytes has no room for them at `ip`, the program is loaded at offset 0
(log entry 9). -/
def State.placeFetch (s : State) (bytes : List Byte) : State :=
  let at_ := if s.ip.toNat + bytes.length ≤ Config.maxStream then s.ip.toNat else 0
  { s with
    ip := BitVec.ofNat 16 at_
    stream := s.stream.take at_ ++ List.replicate (at_ - s.stream.length) 0 ++ bytes
      ++ s.stream.drop (at_ + bytes.length)
    mode := .execute
    status := .running
    fault := none }

end Sys2Proof.Machine
end

