-- ==== Sys2Proof/Machine/Arith.lean ====
section
/-! DEFINITION. ADD, SUB and CMP (spec/41_add_sub_cmp.md R135 to R143): each writes all six flags. -/

namespace Sys2Proof.Machine

/-- Writes the result to the destination, then the flags and `ip`. -/
def aluWrite (w : Width) (dst : Operand) (r : AluResult w.bits) (fin : Word) (s : State) : Result :=
  onNext (s.writeOp w dst r.value) fun t => (t.setFlags r.flags).setIp fin

/-- The common semantics of ADD (R135): both operands are read before the write. -/
def addOp (w : Width) (dst src : Operand) (fin : Word) (s : State) : Result :=
  aluWrite w dst (addFlags (s.readOp w dst) (s.readOp w src)) fin s

/-- The common semantics of SUB (R138): destination minus source. -/
def subOp (w : Width) (dst src : Operand) (fin : Word) (s : State) : Result :=
  aluWrite w dst (subFlags (s.readOp w dst) (s.readOp w src)) fin s

/-- The common semantics of CMP (R141): the flags of SUB, the result discarded. -/
def cmpOp (w : Width) (dst src : Operand) (fin : Word) (s : State) : Result :=
  .next ((s.setFlags (subFlags (s.readOp w dst) (s.readOp w src)).flags).setIp fin)

/-- ADD r/m, reg and ADD reg, r/m (R135). -/
def execAddRmReg (d : Dir) (w : Width) (reg : RegCode) (rm : RmOperand) (s : State) : Result :=
  addOp w (rmRegDst d w reg rm) (rmRegSrc d w reg rm) (s.endOf (.addRmReg d w reg rm)) s

/-- ADD r/m, immediate (R136). -/
def execAddRmImm (sx : Bool) (w : Width) (rm : RmOperand) (imm : Imm) (s : State) : Result :=
  addOp w (rmOperand w rm) (groupSrc w imm) (s.endOf (.addRmImm sx w rm imm)) s

/-- ADD accumulator, immediate (R137). -/
def execAddAccImm (w : Width) (imm : Imm) (s : State) : Result :=
  addOp w (accumulator w) (.imm imm) (s.endOf (.addAccImm w imm)) s

/-- SUB r/m, reg and SUB reg, r/m (R138). -/
def execSubRmReg (d : Dir) (w : Width) (reg : RegCode) (rm : RmOperand) (s : State) : Result :=
  subOp w (rmRegDst d w reg rm) (rmRegSrc d w reg rm) (s.endOf (.subRmReg d w reg rm)) s

/-- SUB r/m, immediate (R139). -/
def execSubRmImm (sx : Bool) (w : Width) (rm : RmOperand) (imm : Imm) (s : State) : Result :=
  subOp w (rmOperand w rm) (groupSrc w imm) (s.endOf (.subRmImm sx w rm imm)) s

/-- SUB accumulator, immediate (R140). -/
def execSubAccImm (w : Width) (imm : Imm) (s : State) : Result :=
  subOp w (accumulator w) (.imm imm) (s.endOf (.subAccImm w imm)) s

/-- CMP r/m, reg and CMP reg, r/m (R141). -/
def execCmpRmReg (d : Dir) (w : Width) (reg : RegCode) (rm : RmOperand) (s : State) : Result :=
  cmpOp w (rmRegDst d w reg rm) (rmRegSrc d w reg rm) (s.endOf (.cmpRmReg d w reg rm)) s

/-- CMP r/m, immediate (R142). -/
def execCmpRmImm (sx : Bool) (w : Width) (rm : RmOperand) (imm : Imm) (s : State) : Result :=
  cmpOp w (rmOperand w rm) (groupSrc w imm) (s.endOf (.cmpRmImm sx w rm imm)) s

/-- CMP accumulator, immediate (R143). -/
def execCmpAccImm (w : Width) (imm : Imm) (s : State) : Result :=
  cmpOp w (accumulator w) (.imm imm) (s.endOf (.cmpAccImm w imm)) s

end Sys2Proof.Machine
end

