-- ==== Sys2Proof/Machine/Jcc.lean ====
section
/-! DEFINITION. The sixteen conditional jumps (spec/42_jcc_loop.md R160 to R178): no register and no flag is written. -/

namespace Sys2Proof.Machine

/-- The common semantics of a conditional jump (R162): `I.end` is `fin`. -/
def jccOp (taken : Bool) (fin : Word) (rel : Byte) (s : State) : Result := .next (s.branch taken fin rel)

/-- `jo` (R163): OF = 1. -/
def execJo (rel : Byte) (s : State) : Result := jccOp (s.of) (s.endOf (.jo rel)) rel s

/-- `jno` (R164): OF = 0. -/
def execJno (rel : Byte) (s : State) : Result := jccOp (!s.of) (s.endOf (.jno rel)) rel s

/-- `jb` (R165): CF = 1. -/
def execJb (rel : Byte) (s : State) : Result := jccOp (s.cf) (s.endOf (.jb rel)) rel s

/-- `jnb` (R166): CF = 0. -/
def execJnb (rel : Byte) (s : State) : Result := jccOp (!s.cf) (s.endOf (.jnb rel)) rel s

/-- `jz` (R167): ZF = 1. -/
def execJz (rel : Byte) (s : State) : Result := jccOp (s.zf) (s.endOf (.jz rel)) rel s

/-- `jnz` (R168): ZF = 0. -/
def execJnz (rel : Byte) (s : State) : Result := jccOp (!s.zf) (s.endOf (.jnz rel)) rel s

/-- `jbe` (R169): CF = 1 or ZF = 1. -/
def execJbe (rel : Byte) (s : State) : Result := jccOp (s.cf || s.zf) (s.endOf (.jbe rel)) rel s

/-- `jnbe` (R170): CF = 0 and ZF = 0. -/
def execJnbe (rel : Byte) (s : State) : Result := jccOp (!s.cf && !s.zf) (s.endOf (.jnbe rel)) rel s

/-- `js` (R171): SF = 1. -/
def execJs (rel : Byte) (s : State) : Result := jccOp (s.sf) (s.endOf (.js rel)) rel s

/-- `jns` (R172): SF = 0. -/
def execJns (rel : Byte) (s : State) : Result := jccOp (!s.sf) (s.endOf (.jns rel)) rel s

/-- `jp` (R173): PF = 1. -/
def execJp (rel : Byte) (s : State) : Result := jccOp (s.pf) (s.endOf (.jp rel)) rel s

/-- `jnp` (R174): PF = 0. -/
def execJnp (rel : Byte) (s : State) : Result := jccOp (!s.pf) (s.endOf (.jnp rel)) rel s

/-- `jl` (R175): SF != OF. -/
def execJl (rel : Byte) (s : State) : Result := jccOp (s.sf != s.of) (s.endOf (.jl rel)) rel s

/-- `jnl` (R176): SF = OF. -/
def execJnl (rel : Byte) (s : State) : Result := jccOp (s.sf == s.of) (s.endOf (.jnl rel)) rel s

/-- `jle` (R177): ZF = 1 or SF != OF. -/
def execJle (rel : Byte) (s : State) : Result := jccOp (s.zf || s.sf != s.of) (s.endOf (.jle rel)) rel s

/-- `jnle` (R178): ZF = 0 and SF = OF. -/
def execJnle (rel : Byte) (s : State) : Result := jccOp (!s.zf && s.sf == s.of) (s.endOf (.jnle rel)) rel s

end Sys2Proof.Machine
end

