-- ==== Sys2Proof/Machine/Loop.lean ====
section
/-! DEFINITION. The loop family (spec/42_jcc_loop.md R179 to R183): no flag is written, and the CX test of the first three
reads the decremented CX (spec/70_reset_and_hazards.md R237). -/

namespace Sys2Proof.Machine

/-- CX has code 001 (R20). -/
def State.cx (s : State) : Word := s.x 1

/-- CX after the decrement, modulo 2^16 (R179). -/
def State.decCx (s : State) : Word := s.cx - 1

/-- CX takes the decremented value, and the jump is taken or not (R180 to R182). -/
def loopOp (taken : Bool) (fin : Word) (rel : Byte) (s : State) : Result :=
  .next ((s.setX 1 s.decCx).branch taken fin rel)

/-- `loopnz` (R180). -/
def execLoopnz (rel : Byte) (s : State) : Result :=
  loopOp (s.decCx != 0 && !s.zf) (s.endOf (.loopnz rel)) rel s

/-- `loopz` (R181). -/
def execLoopz (rel : Byte) (s : State) : Result :=
  loopOp (s.decCx != 0 && s.zf) (s.endOf (.loopz rel)) rel s

/-- `loop` (R182). -/
def execLoop (rel : Byte) (s : State) : Result :=
  loopOp (s.decCx != 0) (s.endOf (.loop rel)) rel s

/-- `jcxz` (R183): CX is tested and not written. -/
def execJcxz (rel : Byte) (s : State) : Result :=
  .next (s.branch (s.cx == 0) (s.endOf (.jcxz rel)) rel)

end Sys2Proof.Machine
end

