-- ==== Sys2Proof/Machine/Mov.lean ====
section
/-! DEFINITION. MOV (spec/40_mov.md R120 to R124): no flag is written. -/

namespace Sys2Proof.Machine

/-- The common semantics of MOV: read the source, write the destination, `ip <- I.end`. `fin` is `I.end`. -/
def movOp (w : Width) (dst src : Operand) (fin : Word) (s : State) : Result :=
  onNext (s.writeOp w dst (s.readOp w src)) fun t => t.setIp fin

/-- MOV r/m, reg and MOV reg, r/m (R120). -/
def execMovRmReg (d : Dir) (w : Width) (reg : RegCode) (rm : RmOperand) (s : State) : Result :=
  movOp w (rmRegDst d w reg rm) (rmRegSrc d w reg rm) (s.endOf (.movRmReg d w reg rm)) s

/-- MOV r/m, immediate (R121). -/
def execMovRmImm (w : Width) (rm : RmOperand) (imm : Imm) (s : State) : Result :=
  movOp w (rmOperand w rm) (.imm imm) (s.endOf (.movRmImm w rm imm)) s

/-- MOV register, immediate (R122). -/
def execMovRegImm (w : Width) (reg : RegCode) (imm : Imm) (s : State) : Result :=
  movOp w (.reg w reg) (.imm imm) (s.endOf (.movRegImm w reg imm)) s

/-- MOV accumulator, direct memory (R123). -/
def execMovAccMem (w : Width) (addr : Word) (s : State) : Result :=
  movOp w (accumulator w) (.memDirect addr) (s.endOf (.movAccMem w addr)) s

/-- MOV direct memory, accumulator (R124). -/
def execMovMemAcc (w : Width) (addr : Word) (s : State) : Result :=
  movOp w (.memDirect addr) (accumulator w) (s.endOf (.movMemAcc w addr)) s

end Sys2Proof.Machine
end

