-- ==== Sys2Proof/Machine/Step.lean ====
section
/-! DEFINITION. One step of the block, and the host's placing of one instruction. -/

namespace Sys2Proof.Machine

/-- One step: one whole instruction (R96, 92_eei_decisions.md D27). -/
def step (s : State) : Host.Outcome State Fault Refusal := cycle exec s

/-- The state with the instruction of this opcode-table word where `step` fetches its next instruction. The host loads the
stream with each reset (spec/70_reset_and_hazards.md R232); this stands for that load (log entries 3, 8 and 9). -/
def State.withFetchWord (s : State) (nbits w : Nat) : State := s.placeFetch (tableBytes nbits w)

end Sys2Proof.Machine
end

