-- ==== Sys2Proof/Safety.lean ====
section
/-! DEFINITION. What a sound state and a safe run are, in the terms the statements use. Every reachable state is sound:
soundness holds at every launch and every step keeps it (Certificates/Slice0/Obligations.lean). -/

namespace Sys2Proof.Machine

/-- The fault record is the one that fault entry at this state writes (spec/60_exceptions.md R200 to R206). -/
structure FaultRecord.Sound (r : FaultRecord) (s : State) : Prop where
  /-- Decoding at `ip` fails, and the record is its cause, `ip` and its bytes (R204, R206). -/
  fromDecode : ∃ e, decode s.fetchBytes = .error e ∧ r = ⟨causeOf e, s.ip, s.faultBytes e⟩
  /-- 1 to 6 bytes (R41). -/
  nonempty : 1 ≤ r.bytes.length
  short : r.bytes.length ≤ Config.maxLength
  /-- They are the stream's bytes from the offset on (R204). -/
  fromStream : r.bytes = s.fetchBytes.take r.bytes.length

/-- The invariant of every run. -/
structure State.Sound (s : State) : Prop where
  /-- Data memory is in canonical form (R51). -/
  mem : s.mem.wf
  /-- The bits of the flags word that are not implemented read as 0 (R27). -/
  flags : s.flags &&& Flags.reservedMask = 0
  /-- L ≤ 65535 (R6). -/
  stream : s.stream.length ≤ Config.maxStream
  /-- RUNNING only with `ip < L` (R96). -/
  running : s.status = .running → s.ip.toNat < s.stream.length
  /-- ENDED only with `ip ≥ L` (R40, R99). -/
  ended : s.status = .ended → s.stream.length ≤ s.ip.toNat
  /-- The fault record is empty unless FAULTED (R41). -/
  fault : s.fault.isSome = true ↔ s.status = .faulted
  record : ∀ r, s.fault = some r → r.Sound s
  /-- One trace record per retirement (R43). -/
  trace : s.trace.length = s.retired

/-- ENDED and FAULTED, the two stopped states (R216). -/
def State.Stopped (s : State) : Prop := s.status = .ended ∨ s.status = .faulted

/-- The run goes from `s` to `t` in some number of steps. -/
inductive Steps : State → State → Prop where
  | refl (s : State) : Steps s s
  | tail {s t u : State} (first : Steps s t) (last : step t = .next u) : Steps s u

/-- The state is met in some run: some launch inputs lead to it. -/
def State.Reachable (s : State) : Prop := ∃ bs m s₀, State.launch bs m = .next s₀ ∧ Steps s₀ s

/-! ## Destinations, for the statements about results and frames -/

/-- The value that operand `o`, with its address computed in `s`, holds in `t` (R81, R94: the EA is computed once, before
any write). -/
def State.valueAt (s t : State) (w : Width) (o : Operand) : BitVec w.bits :=
  match s.ea o with
  | some a => t.memRead w a
  | none => t.readOp w o

/-- Nothing but registers, flags, memory and `ip` may differ: status, mode, stream, fault record, retirements, trace. -/
def SameControl (s t : State) : Prop :=
  t.status = s.status ∧ t.mode = s.mode ∧ t.stream = s.stream ∧ t.fault = s.fault ∧ t.retired = s.retired ∧
    t.trace = s.trace

/-- The frame of a write to operand `o`, with its address computed in `s`: every other register, the other half of the
register of a byte destination, and every byte outside the stored ones are unchanged (R22, R53). -/
def OnlyWrites (w : Width) (o : Operand) (s t : State) : Prop :=
  match o with
  | .reg _ c =>
    t.mem = s.mem ∧ (∀ d, d ≠ containing w c → t.x d = s.x d) ∧ (w = .byte → ∀ d, d ≠ c → t.x8 d = s.x8 d)
  | _ =>
    t.regs = s.regs ∧ ∀ a, s.ea o = some a → ∀ b, b ∉ accessBytes w a → t.memByte b = s.memByte b

end Sys2Proof.Machine
end

