-- ==== Sys2Proof/Certificates/Slice0/Obligations.lean ====
section
/-! DEFINITION. The statements about the model, for the provers. The helpers in `Sys2Proof.Claims` say in the spec's own
numbers what the decoder and the meanings compute with bit vectors. -/

namespace Sys2Proof.Claims

open Sys2Proof.Machine

/-- The 68 leading bytes that spec/30_encoding.md R84 maps, as ranges. -/
def Mapped (b0 : Byte) : Prop :=
  let n := b0.toNat
  n ≤ 0x05 ∨ (0x28 ≤ n ∧ n ≤ 0x2D) ∨ (0x38 ≤ n ∧ n ≤ 0x3D) ∨ (0x70 ≤ n ∧ n ≤ 0x83) ∨ (0x88 ≤ n ∧ n ≤ 0x8B) ∨
    (0xA0 ≤ n ∧ n ≤ 0xA3) ∨ (0xB0 ≤ n ∧ n ≤ 0xBF) ∨ n = 0xC6 ∨ n = 0xC7 ∨ (0xE0 ≤ n ∧ n ≤ 0xE3)

/-- The mapped leading bytes whose form has a modrm byte (R83: RM, RMI, GRP). -/
def HasModRm (b0 : Byte) : Prop :=
  let n := b0.toNat
  n ≤ 0x03 ∨ (0x28 ≤ n ∧ n ≤ 0x2B) ∨ (0x38 ≤ n ∧ n ≤ 0x3B) ∨ (0x80 ≤ n ∧ n ≤ 0x83) ∨ (0x88 ≤ n ∧ n ≤ 0x8B) ∨
    n = 0xC6 ∨ n = 0xC7

/-- b1[5:3] is none of 000, 101, 111 in the group 80-83, or not 000 in C6 and C7 (R90, R201). -/
def BadExtension (b0 b1 : Byte) : Prop :=
  let n := b0.toNat
  let ext := b1.toNat / 8 % 8
  (0x80 ≤ n ∧ n ≤ 0x83 ∧ ext ≠ 0 ∧ ext ≠ 5 ∧ ext ≠ 7) ∨ ((n = 0xC6 ∨ n = 0xC7) ∧ ext ≠ 0)

/-- `displacement_size(mod, rm)` of a modrm byte (R79). -/
def dispSize (b1 : Byte) : Nat :=
  let mod := b1.toNat / 64
  let rm := b1.toNat % 8
  if mod = 0 then (if rm = 6 then 2 else 0) else if mod = 1 then 1 else if mod = 2 then 2 else 0

/-- The length of a mapped form in bytes, by the table of R83; b1 matters only where the form has a modrm byte. -/
def formLength (b0 b1 : Byte) : Nat :=
  let n := b0.toNat
  let w := n % 2
  if n ≤ 0x03 ∨ (0x28 ≤ n ∧ n ≤ 0x2B) ∨ (0x38 ≤ n ∧ n ≤ 0x3B) ∨ (0x88 ≤ n ∧ n ≤ 0x8B) then 2 + dispSize b1
  else if n = 0xC6 ∨ n = 0xC7 then 3 + dispSize b1 + w
  else if 0x80 ≤ n ∧ n ≤ 0x83 then 2 + dispSize b1 + (if n = 0x81 then 2 else 1)
  else if 0xB0 ≤ n ∧ n ≤ 0xBF then 2 + n / 8 % 2
  else if 0xA0 ≤ n ∧ n ≤ 0xA3 then 3
  else if n = 0x04 ∨ n = 0x05 ∨ n = 0x2C ∨ n = 0x2D ∨ n = 0x3C ∨ n = 0x3D then 2 + w
  else 2

/-- `popcount` (R9) of a number below 256. -/
def popcount (v : Nat) : Nat :=
  v % 2 + v / 2 % 2 + v / 4 % 2 + v / 8 % 2 + v / 16 % 2 + v / 32 % 2 + v / 64 % 2 + v / 128 % 2

/-- The base value of an rm code as a number, before the reduction (R77). -/
def baseSum (s : State) (rm : BitVec 3) : Nat :=
  match rm.toNat with
  | 0 => s.regs.bx.toNat + s.regs.si.toNat
  | 1 => s.regs.bx.toNat + s.regs.di.toNat
  | 2 => s.regs.bp.toNat + s.regs.si.toNat
  | 3 => s.regs.bp.toNat + s.regs.di.toNat
  | 4 => s.regs.si.toNat
  | 5 => s.regs.di.toNat
  | 6 => s.regs.bp.toNat
  | _ => s.regs.bx.toNat

/-- The operand decoded from `mod`, `rm` and the bytes `bs` leaves the bytes `r` and has this effective address. -/
def DecodesToAddress (w : Width) (s : State) (mod : BitVec 2) (rm : BitVec 3) (bs r : List Byte) (ea : Nat) : Prop :=
  ∃ o a, decodeRm mod rm bs = .ok (o, r) ∧ s.ea (rmOperand w o) = some a ∧ a.toNat = ea

/-- The immediate as a number. -/
def immNat : Imm → Nat
  | .imm8 v => v.toNat
  | .imm16 v => v.toNat

/-- The immediate of the group 80-83 as a number of width w: `sext_16` of one byte when w = 1 (R9, R74). -/
def groupImmNat (w : Width) (imm : Imm) : Nat :=
  match w, imm with
  | .word, .imm8 v => if v.toNat < 128 then v.toNat else v.toNat + 0xFF00
  | _, v => immNat v

/-- `exec` answers a state in which operand `dst` holds `value`, the flags word is `flags`, `ip` has advanced by the
instruction's length `len`, and no status, mode, stream, fault record, retirement or trace record changes. -/
def Completes (i : Instr) (s : State) (w : Width) (dst : Operand) (value : Nat) (flags : Word) (len : Nat) : Prop :=
  ∃ t, exec i s = .next t ∧ (s.valueAt t w dst).toNat = value ∧ t.flags = flags ∧
    t.ip.toNat = (s.ip.toNat + len) % 65536 ∧ SameControl s t

/-- ADD's rule on destination `dst` with source value `b`: the sum modulo 2^n and the flags of `AddFlags` (R130, R131). -/
def AddsTo (i : Instr) (s : State) (w : Width) (dst : Operand) (b : BitVec w.bits) (len : Nat) : Prop :=
  Completes i s w dst (((s.readOp w dst).toNat + b.toNat) % 2 ^ w.bits) (addFlags (s.readOp w dst) b).flags.toWord len

/-- SUB's rule on destination `dst` with source value `b`: the difference modulo 2^n and the flags of `SubFlags`
(R130, R132). -/
def SubtractsFrom (i : Instr) (s : State) (w : Width) (dst : Operand) (b : BitVec w.bits) (len : Nat) : Prop :=
  Completes i s w dst (((s.readOp w dst).toNat + 2 ^ w.bits - b.toNat) % 2 ^ w.bits)
    (subFlags (s.readOp w dst) b).flags.toWord len

/-- CMP's rule: only the flags, to those of `SubFlags`, and `ip` change (R141). -/
def Compares (i : Instr) (s : State) (w : Width) (dst : Operand) (b : BitVec w.bits) (len : Nat) : Prop :=
  ∃ t, exec i s = .next t ∧ t.flags = (subFlags (s.readOp w dst) b).flags.toWord ∧
    t.ip.toNat = (s.ip.toNat + len) % 65536 ∧ t = { s with flags := t.flags, ip := t.ip }

/-- The 16-bit register that `reg(w, c)` is stored in, by the table of R21. -/
def storedIn (w : Width) (c : RegCode) : RegCode := if w = .byte ∧ 4 ≤ c.toNat then c - 4 else c

/-- The trace record lists exactly these registers and these memory bytes, each once, with the values before and after. The
bytes may stand in any order: their order is log entry 16 (DESIGN CHOICE). -/
def Lists (i : Instr) (s t : State) (regs : List RegCode) (bytes : List Word) : Prop :=
  (effectsOf i s t).regs = regs.map (fun c => ⟨c, s.x c, t.x c⟩) ∧
    (effectsOf i s t).bytes.Perm (bytes.map fun a => ⟨a, s.memByte a, t.memByte a⟩)

/-- `ip` after a J8 instruction: `end` or `(end + signed rel8) mod 2^16` (R160, R161). -/
def JumpsTo (s t : State) (taken : Bool) (rel : Byte) : Prop :=
  (t.ip.toNat : Int) = ((s.ip.toNat : Int) + 2 + if taken then rel.toInt else 0) % 65536

/-- The rule of a conditional jump (R162): its opcode and length, its one fault, and its whole effect. -/
def ConditionalJump (opcode : Byte) (mk : Byte → Instr) (taken : State → Bool) : Prop :=
  (∀ rel r, decode (opcode :: rel :: r) = .ok (mk rel, r)) ∧ decode [opcode] = .error .truncatedInstruction ∧
    ∀ rel s, ∃ t, exec (mk rel) s = .next t ∧ t = { s with ip := t.ip } ∧ JumpsTo s t (taken s) rel

/-- The rule of LOOP, LOOPZ and LOOPNZ (R179): CX goes down by one modulo 2^16, the test reads the new CX, and nothing
else but `ip` changes. -/
def CountingLoop (opcode : Byte) (mk : Byte → Instr) (zfTest : Bool → Bool) : Prop :=
  (∀ rel r, decode (opcode :: rel :: r) = .ok (mk rel, r)) ∧ decode [opcode] = .error .truncatedInstruction ∧
    ∀ rel s, ∃ t, exec (mk rel) s = .next t ∧ t.regs.cx.toNat = (s.regs.cx.toNat + 65535) % 65536 ∧
      t = { s with regs := { s.regs with cx := t.regs.cx }, ip := t.ip } ∧
      JumpsTo s t (t.regs.cx.toNat ≠ 0 && zfTest (s.flags.getLsbD 6)) rel

end Sys2Proof.Claims

open Sys2Proof Sys2Proof.Machine Sys2Proof.Claims

/-! ## Reset and launch -/

/-- R44: every piece of state after a reset with these launch inputs. The zero registers and flags are the spec's choices D3
and D4, and `ip` = 0 is its own inference. -/
def Obligations.LaunchSetsResetValues : Prop :=
  ∀ (bs : List Byte) (m : Mode) (s : State), State.launch bs m = .next s →
    s.regs.ax = 0 ∧ s.regs.cx = 0 ∧ s.regs.dx = 0 ∧ s.regs.bx = 0 ∧ s.regs.sp = 0 ∧ s.regs.bp = 0 ∧ s.regs.si = 0 ∧
      s.regs.di = 0 ∧ s.ip = 0 ∧ s.flags = 0 ∧ (∀ a : Word, s.memByte a = 0) ∧
      s.status = (if bs = [] then .ended else .running) ∧ s.fault = none ∧ s.retired = 0 ∧ s.mode = m ∧ s.stream = bs

/-- 93_implementation_defined.md I4: a launch is refused exactly for a stream longer than 65535 bytes. -/
def Obligations.LaunchRefusesOnlyLongStreams : Prop :=
  ∀ (bs : List Byte) (m : Mode),
    (State.launch bs m = .refused .streamTooLong ↔ 65535 < bs.length) ∧
      ((∃ s, State.launch bs m = .next s) ↔ bs.length ≤ 65535)

/-- The invariant holds after reset and after every launch. -/
def Obligations.LaunchIsSound : Prop :=
  State.reset.Sound ∧ ∀ (bs : List Byte) (m : Mode) (s : State), State.launch bs m = .next s → s.Sound

/-- The invariant is kept by every step, from every state that has it. -/
def Obligations.StepKeepsSound : Prop :=
  ∀ s t : State, s.Sound → step s = .next t → t.Sound

/-! ## Faults and the step cycle -/

/-- No execution faults; a step that makes a fault record found it in decode and had no other effect (R205, which the spec
derives from R57, R62 and R134). -/
def Obligations.NoFaultDuringExecution : Prop :=
  (∀ (i : Instr) (s : State), ∃ t, exec i s = .next t) ∧
    ∀ s t : State, step s = .next t → t.fault ≠ s.fault →
      (∃ e, decode s.fetchBytes = .error e) ∧ t.regs = s.regs ∧ t.flags = s.flags ∧ t.mem = s.mem ∧ t.ip = s.ip

/-- Every step answers a next state. That it does so in a stopped state, at a decode fault, and in status RUNNING with `ip`
at or past L is the model's choice: log entries 1, 2 and 7, all DEDUCED. -/
def Obligations.StepAlwaysAnswersNext : Prop :=
  ∀ s : State, ∃ t, step s = .next t

/-- R203: no decoded destination is an immediate, a write to one is the only raiser, and no run ever records it
(the spec's choice D26). -/
def Obligations.InvalidOperandCombinationUnreachable : Prop :=
  (∀ (bs r : List Byte) (i : Instr) (d o : Operand), decode bs = .ok (i, r) → i.operands = some (d, o) →
      ∀ v, d ≠ .imm v) ∧
    (∀ (s : State) (w : Width) (o : Operand) (x : BitVec w.bits) (c : Fault),
      s.writeOp w o x = .fault c ↔ (∃ v, o = .imm v) ∧ c = .invalidOperandCombination) ∧
    ∀ (s : State) (r : FaultRecord), s.Reachable → s.fault = some r → r.cause ≠ .invalidOperandCombination

/-- Fault entry, in either mode, with the bytes of the record (60_exceptions.md sections 1 and 2). That the entry is a next
state and not a stop of the model is the model's choice, log entry 2 (DEDUCED); so is what it records in status RUNNING with
`ip` at or past L, TruncatedInstruction with no bytes, log entry 7 (DEDUCED). -/
def Obligations.DecodeFaultEntry : Prop :=
  ∀ (s : State) (e : DecodeError), s.status = .running → decode s.fetchBytes = .error e →
    ∃ t, step s = .next t ∧ t.status = .faulted ∧
      (∀ c, e = .unrecognizedOpcode c → t.fault = some ⟨.unrecognizedOpcode, s.ip, c⟩) ∧
      (e = .truncatedInstruction → t.fault = some ⟨.truncatedInstruction, s.ip, s.stream.drop s.ip.toNat⟩) ∧
      t.regs = s.regs ∧ t.flags = s.flags ∧ t.mem = s.mem ∧ t.ip = s.ip ∧ t.stream = s.stream ∧ t.mode = s.mode ∧
      t.retired = s.retired ∧ t.trace = s.trace

/-- ENDED and FAULTED keep all state, over any number of steps (30_encoding.md section 6; 60_exceptions.md sections 2 and 6).
That `step` answers at all there, with the same state, is the model's choice, log entry 1 (DEDUCED): the spec says that the
block has no step. -/
def Obligations.StoppedStateNeverChanges : Prop :=
  ∀ s t : State, s.Stopped → step s = .next s ∧ (Steps s t → t = s)

/-- R96: the step of a RUNNING block in EXECUTE mode whose bytes at `ip` encode `i` is `exec i`, then the retirement. -/
def Obligations.StepRunsDecodedInstruction : Prop :=
  ∀ (i : Instr) (s : State) (r : List Byte), i.wf = true → s.status = .running → s.mode = .execute →
    s.fetchBytes = encode i ++ r →
    ∃ u t, exec i s = .next u ∧ step s = .next t ∧ t.regs = u.regs ∧ t.flags = u.flags ∧ t.mem = u.mem ∧ t.ip = u.ip ∧
      t.stream = s.stream ∧ t.mode = s.mode ∧ t.fault = s.fault ∧ t.retired = s.retired + 1 ∧
      t.trace = s.trace ++ [⟨s.recordOf i, some (effectsOf i s u)⟩] ∧
      t.status = (if s.stream.length ≤ u.ip.toNat then .ended else .running)

/-- R97: in DECODE_ONLY mode (the spec's choice D17) nothing is executed and `ip` goes to the end of every form, jumps
included. -/
def Obligations.DecodeOnlyStepOnlyAdvances : Prop :=
  ∀ (i : Instr) (s : State) (r : List Byte), i.wf = true → s.status = .running → s.mode = .decodeOnly →
    s.fetchBytes = encode i ++ r →
    ∃ t, step s = .next t ∧ t.regs = s.regs ∧ t.flags = s.flags ∧ t.mem = s.mem ∧
      t.ip.toNat = (s.ip.toNat + i.length) % 65536 ∧ t.stream = s.stream ∧ t.mode = s.mode ∧ t.fault = s.fault ∧
      t.retired = s.retired + 1 ∧ t.trace = s.trace ++ [⟨s.recordOf i, none⟩] ∧
      t.status = (if s.stream.length ≤ t.ip.toNat then .ended else .running)

/-- R99: a retirement ends the run exactly when `ip ≥ L`, with `ip` not clamped (the spec's choices D8, D28 and D29); a launch of
the empty stream too, with nothing executed. -/
def Obligations.RunEndsExactlyOutsideStream : Prop :=
  (∀ (bs : List Byte) (m : Mode) (s : State), State.launch bs m = .next s →
      (s.status = .ended ↔ bs.length ≤ s.ip.toNat) ∧ s.retired = 0) ∧
    ∀ (s t : State) (i : Instr) (r : List Byte), s.status = .running → decode s.fetchBytes = .ok (i, r) →
      step s = .next t →
      (t.status = .ended ↔ s.stream.length ≤ t.ip.toNat) ∧
        (s.mode = .execute → ∀ u, exec i s = .next u → t.ip = u.ip)

/-- R43: a step retires, counts and emits one trace record, exactly where it decodes an instruction in status RUNNING; the
count starts at 0, and no instruction reads it or the trace (the count is the spec's choice D18). -/
def Obligations.RetirementCountsAndTraces : Prop :=
  (∀ (bs : List Byte) (m : Mode) (s : State), State.launch bs m = .next s → s.retired = 0 ∧ s.trace = []) ∧
  (∀ (i : Instr) (s t : State) (n : Nat) (l : List TraceRecord), exec i s = .next t →
    exec i { s with retired := n, trace := l } = .next { t with retired := n, trace := l }) ∧
  ∀ s t : State, step s = .next t →
    ((s.status = .running ∧ ∃ p, decode s.fetchBytes = .ok p) →
        t.retired = s.retired + 1 ∧ ∃ x, t.trace = s.trace ++ [x]) ∧
      (¬(s.status = .running ∧ ∃ p, decode s.fetchBytes = .ok p) → t.retired = s.retired ∧ t.trace = s.trace)

/-- R214 (the content of the record): every register, byte and flags word that an instruction changes stands in its trace
record with the values before and after, and so do both values of `ip`. -/
def Obligations.TraceRecordShowsEveryChange : Prop :=
  ∀ (i : Instr) (s t : State), s.mem.wf → exec i s = .next t →
    (effectsOf i s t).ipBefore = s.ip ∧ (effectsOf i s t).ipAfter = t.ip ∧
      (∀ c, t.x c ≠ s.x c → ⟨c, s.x c, t.x c⟩ ∈ (effectsOf i s t).regs) ∧
      (∀ a, t.memByte a ≠ s.memByte a → ⟨a, s.memByte a, t.memByte a⟩ ∈ (effectsOf i s t).bytes) ∧
      (t.flags ≠ s.flags → (effectsOf i s t).flags = some ⟨s.flags, t.flags⟩)

/-- What the trace record of an executed instruction lists (60_exceptions.md section 6): for MOV, ADD and SUB the 16-bit
register of a register destination or each byte of a memory destination, for LOOP, LOOPZ and LOOPNZ CX, for every other
instruction neither; both flags words for ADD, SUB and CMP alone. A register or byte written with its old value is listed, and
nothing that is not written. -/
def Obligations.TraceRecordListsExactlyTheWrites : Prop :=
  ∀ (i : Instr) (s t : State), exec i s = .next t →
    (∀ w dst src, (i.op = .mov ∨ i.op = .add ∨ i.op = .sub) → i.width = some w → i.operands = some (dst, src) →
        (∀ u c, dst = .reg u c → Lists i s t [storedIn w c] []) ∧
          ∀ a, s.ea dst = some a → Lists i s t [] (if w = .byte then [a] else [a, a + 1])) ∧
      ((i.op = .cmp ∨ ∃ cc, i.op = .jcc cc) → Lists i s t [] []) ∧
      (∀ k, i.op = .loopk k → Lists i s t (if k = 3 then [] else [1]) []) ∧
      (effectsOf i s t).flags =
        (if i.op = .add ∨ i.op = .sub ∨ i.op = .cmp then some ⟨s.flags, t.flags⟩ else none)

/-- MODE changes only whether the record is executed (R91, which the spec derives from R90): in both modes a step decodes the
same record or takes the same fault. -/
def Obligations.ModeDoesNotChangeDecoding : Prop :=
  ∀ (s t u : State) (m : Mode), step s = .next t → step { s with mode := m } = .next u →
    t.fault = u.fault ∧ t.retired = u.retired ∧ t.trace.map TraceRecord.record = u.trace.map TraceRecord.record

/-! ## Decoding and encoding -/

/-- Decoding gives back every well-formed instruction from its encoding, and leaves the bytes after it. -/
def Obligations.DecodeGivesBackEncodedInstruction : Prop :=
  ∀ (i : Instr) (r : List Byte), i.wf = true → decode (encode i ++ r) = .ok (i, r)

/-- Whatever the decoder accepts is well-formed and encodes to exactly the bytes it was read from: no raw field is lost. -/
def Obligations.EncodeGivesBackDecodedBytes : Prop :=
  ∀ (bs r : List Byte) (i : Instr), decode bs = .ok (i, r) → i.wf = true ∧ bs = encode i ++ r

/-- R93: every RM encoding with mod = 11 decodes, and re-encodes to the same two bytes. -/
def Obligations.RegisterDirectEncodingsRoundTrip : Prop :=
  ∀ (b0 b1 : Byte) (r : List Byte),
    (b0 &&& 0xFC = 0x88 ∨ b0 &&& 0xFC = 0x00 ∨ b0 &&& 0xFC = 0x28 ∨ b0 &&& 0xFC = 0x38) → b1 &&& 0xC0 = 0xC0 →
    ∃ i, decode (b0 :: b1 :: r) = .ok (i, r) ∧ encode i = [b0, b1]

/-- R89: `end - begin` is the number of bytes consumed, which is the length of R83, in the decoder and in the record a step
emits. -/
def Obligations.DecodedLengthIsExact : Prop :=
  (∀ (bs r : List Byte) (i : Instr), decode bs = .ok (i, r) →
      bs.length = i.length + r.length ∧ 2 ≤ i.length ∧ i.length ≤ 6) ∧
    ∀ (s t : State) (x : TraceRecord), s.Sound → step s = .next t → t.trace = s.trace ++ [x] →
      x.record.offsetEnd.toNat = x.record.offsetBegin.toNat + x.record.bytes.length ∧
        x.record.bytes.length = x.record.instr.length

/-- R201: UnrecognizedOpcode is raised in exactly the three cases (the extension checks are the spec's choice D12). -/
def Obligations.UnrecognizedOpcodeExactly : Prop :=
  ∀ (b0 : Byte) (r c : List Byte),
    decode (b0 :: r) = .error (.unrecognizedOpcode c) ↔
      (¬Mapped b0 ∧ c = [b0]) ∨ ∃ b1 r', r = b1 :: r' ∧ BadExtension b0 b1 ∧ c = [b0, b1]

/-- R207: the one fault an instruction reports is the first check that fails; with no failing check it decodes at the
length of R83 (the priority is the spec's choice D11). -/
def Obligations.FirstFailingCheckIsReported : Prop :=
  ∀ (b0 : Byte) (r : List Byte),
    (¬Mapped b0 → decode (b0 :: r) = .error (.unrecognizedOpcode [b0])) ∧
      (HasModRm b0 → decode [b0] = .error .truncatedInstruction) ∧
      (∀ b1, BadExtension b0 b1 → decode (b0 :: b1 :: r) = .error (.unrecognizedOpcode [b0, b1])) ∧
      (Mapped b0 → ¬BadExtension b0 (r.headD 0) →
        ((b0 :: r).length < formLength b0 (r.headD 0) → decode (b0 :: r) = .error .truncatedInstruction) ∧
          (formLength b0 (r.headD 0) ≤ (b0 :: r).length →
            ∃ i r', decode (b0 :: r) = .ok (i, r') ∧ i.length = formLength b0 (r.headD 0)))

/-- Decoding depends on no byte after the instruction's own (R58, R86). -/
def Obligations.DecodingReadsOnlyItsOwnBytes : Prop :=
  ∀ (bs r r' : List Byte) (i : Instr), decode bs = .ok (i, r) → decode (bs.take i.length ++ r') = .ok (i, r')

/-- R74: the immediate of the group 80-83 by s and w, and 0x82 as 0x80 (the spec's choice D14). -/
def Obligations.SignExtendBitRule : Prop :=
  ∀ (ext : BitVec 3) (mk : Bool → Width → RmOperand → Imm → Instr) (rm : RmOperand) (v hi : Byte) (r : List Byte),
    groupOp ext = some mk → rm.wf = true →
    decode (0x83 :: (rm.encode ext ++ v :: r)) = .ok (mk true .word rm (.imm8 v), r) ∧
      decode (0x81 :: (rm.encode ext ++ v :: hi :: r)) = .ok (mk false .word rm (.imm16 (wordOf v hi)), r) ∧
      decode (0x80 :: (rm.encode ext ++ v :: r)) = .ok (mk false .byte rm (.imm8 v), r) ∧
      decode (0x82 :: (rm.encode ext ++ v :: r)) = .ok (mk true .byte rm (.imm8 v), r) ∧
      ∀ s : State,
        (s.readOp .word (groupSrc .word (.imm8 v))).toNat = (if v.toNat < 128 then v.toNat else v.toNat + 0xFF00) ∧
          (s.readOp .word (groupSrc .word (.imm16 (wordOf v hi)))).toNat = v.toNat + 256 * hi.toNat ∧
          (s.readOp .byte (groupSrc .byte (.imm8 v))).toNat = v.toNat ∧
          exec (mk true .byte rm (.imm8 v)) s = exec (mk false .byte rm (.imm8 v)) s

/-- R80, with the base values of R77 and the sum of R81: the effective address of every mod and rm, as a number modulo 2^16;
mod = 11 is a register. -/
def Obligations.ModRmEffectiveAddress : Prop :=
  ∀ (w : Width) (s : State) (rm : BitVec 3) (d lo hi : Byte) (r : List Byte),
    (rm ≠ 6 → DecodesToAddress w s 0 rm r r (baseSum s rm % 65536)) ∧
      DecodesToAddress w s 0 6 (lo :: hi :: r) r (lo.toNat + 256 * hi.toNat) ∧
      DecodesToAddress w s 1 rm (d :: r) r
        ((baseSum s rm + if d.toNat < 128 then d.toNat else d.toNat + 0xFF00) % 65536) ∧
      DecodesToAddress w s 2 rm (lo :: hi :: r) r ((baseSum s rm + lo.toNat + 256 * hi.toNat) % 65536) ∧
      ∃ o, decodeRm 3 rm r = .ok (o, r) ∧ rmOperand w o = .reg w rm ∧ s.ea (rmOperand w o) = none

/-- Words written out bit by bit from R83 and R84 decode to the instruction they stand for, one or more for each format. -/
def Obligations.SampleWordsDecode : Prop :=
  decode [0b10001001, 0b11011000] = .ok (.movRmReg .toRm .word 3 (.reg 0), []) ∧
    decode [0b11000111, 0b10000110, 0x00, 0x01, 0x39, 0x30] = .ok (.movRmImm .word (.ind16 .bp 0x0100) (.imm16 0x3039), []) ∧
    decode [0b10111000, 0x05, 0x00] = .ok (.movRegImm .word 0 (.imm16 5), []) ∧
    decode [0b10100011, 0x00, 0x10] = .ok (.movMemAcc .word 0x1000, []) ∧
    decode [0b00000011, 0b01000110, 0x02] = .ok (.addRmReg .toReg .word 0 (.ind8 .bp 2), []) ∧
    decode [0b10000011, 0b11101001, 0x01] = .ok (.subRmImm true .word (.reg 1) (.imm8 1), []) ∧
    decode [0b00111100, 0x80] = .ok (.cmpAccImm .byte (.imm8 0x80), []) ∧
    decode [0b01110101, 0xFB] = .ok (.jnz 0xFB, []) ∧
    decode [0b11100011, 0x05] = .ok (.jcxz 5, [])

/-! ## Registers, memory and flags -/

/-- R22, with the halves of R21: an 8-bit register is a half of a 16-bit one, and writing it keeps the other half and every other register. -/
def Obligations.HalfRegisterWrite : Prop :=
  ∀ (s : State) (c d : RegCode) (v : Byte),
    (c.toNat < 4 →
        (s.x8 c).toNat = (s.x c).toNat % 256 ∧
          (s.setX8 c v).x c = (s.x c &&& 0xFF00) ||| v.setWidth 16 ∧ (d ≠ c → (s.setX8 c v).x d = s.x d)) ∧
      (4 ≤ c.toNat →
        (s.x8 c).toNat = (s.x (c - 4)).toNat / 256 ∧
          (s.setX8 c v).x (c - 4) = (s.x (c - 4) &&& 0x00FF) ||| (v.setWidth 16 <<< 8) ∧
          (d ≠ c - 4 → (s.setX8 c v).x d = s.x d))

/-- R94: `ReadOp` of a memory operand is `MemRead` at its effective address, of a register `reg(w, c)` (R10), and of an
immediate its value; the eight registers by their codes (R20). -/
def Obligations.ReadOperandRule : Prop :=
  ∀ (s : State) (w : Width),
    (∀ o a, s.ea o = some a → s.readOp w o = s.memRead w a) ∧
      (∀ c, s.readOp .byte (.reg .byte c) = s.x8 c ∧ s.readOp .word (.reg .word c) = s.x c) ∧
      (∀ v : Imm, v.fits w = true → (s.readOp w (.imm v)).toNat = immNat v) ∧
      s.x 0 = s.regs.ax ∧ s.x 1 = s.regs.cx ∧ s.x 2 = s.regs.dx ∧ s.x 3 = s.regs.bx ∧ s.x 4 = s.regs.sp ∧
      s.x 5 = s.regs.bp ∧ s.x 6 = s.regs.si ∧ s.x 7 = s.regs.di

/-- R52: a word read is little-endian and its second byte's address wraps. -/
def Obligations.MemoryReadRule : Prop :=
  ∀ (s : State) (a b : Word), b.toNat = (a.toNat + 1) % 65536 →
    s.memRead .byte a = s.memByte a ∧
      (s.memRead .word a : Word).toNat = (s.memByte a).toNat + 256 * (s.memByte b).toNat

/-- R53, R54: what every byte reads after a write of either width, at every address. -/
def Obligations.MemoryWriteRule : Prop :=
  ∀ (s : State) (a b : Word) (v : Byte) (x : Word), s.mem.wf →
    (s.memWrite .byte a v).memByte b = (if b = a then v else s.memByte b) ∧
      ((s.memWrite .word a x).memByte b).toNat =
        (if b = a then x.toNat % 256 else if b.toNat = (a.toNat + 1) % 65536 then x.toNat / 256
          else (s.memByte b).toNat)

/-- R131, formula by formula on numbers, at both widths (CF, AF and OF are the spec's choice D1). -/
def Obligations.AddFlagsFormulas : Prop :=
  ∀ (w : Width) (x y : BitVec w.bits),
    let n := w.bits
    let a := x.toNat
    let b := y.toNat
    let t := a + b
    let r := t % 2 ^ n
    (addFlags x y).value.toNat = r ∧
      (addFlags x y).flags =
        { cf := decide (2 ^ n ≤ t)
          pf := decide (popcount (r % 256) % 2 = 0)
          af := decide ((a ^^^ b ^^^ r) &&& 0x10 ≠ 0)
          zf := decide (r = 0)
          sf := decide (r &&& 2 ^ (n - 1) ≠ 0)
          of := decide ((a ^^^ r) &&& (b ^^^ r) &&& 2 ^ (n - 1) ≠ 0) }

/-- R132, formula by formula on numbers, at both widths (CF, AF and OF are the spec's choice D1). -/
def Obligations.SubFlagsFormulas : Prop :=
  ∀ (w : Width) (x y : BitVec w.bits),
    let n := w.bits
    let a := x.toNat
    let b := y.toNat
    let r := (a + 2 ^ n - b) % 2 ^ n
    (subFlags x y).value.toNat = r ∧
      (subFlags x y).flags =
        { cf := decide (a < b)
          pf := decide (popcount (r % 256) % 2 = 0)
          af := decide ((a ^^^ b ^^^ r) &&& 0x10 ≠ 0)
          zf := decide (r = 0)
          sf := decide (r &&& 2 ^ (n - 1) ≠ 0)
          of := decide ((a ^^^ b) &&& (a ^^^ r) &&& 2 ^ (n - 1) ≠ 0) }

/-- R28, R30, R33 (what the flags mean): CF is the unsigned carry or borrow, OF says that the signed result does not fit,
AF is the carry out of bit 3 or the borrow into it. -/
def Obligations.CarryAuxiliaryAndOverflowMeaning : Prop :=
  ∀ (w : Width) (a b : BitVec w.bits),
    ((addFlags a b).flags.cf = true ↔ a.toNat + b.toNat ≠ (addFlags a b).value.toNat) ∧
      ((addFlags a b).flags.of = true ↔ a.toInt + b.toInt ≠ (addFlags a b).value.toInt) ∧
      ((addFlags a b).flags.af = true ↔ 16 ≤ a.toNat % 16 + b.toNat % 16) ∧
      ((subFlags a b).flags.cf = true ↔ a.toNat < b.toNat) ∧
      ((subFlags a b).flags.of = true ↔ a.toInt - b.toInt ≠ (subFlags a b).value.toInt) ∧
      ((subFlags a b).flags.af = true ↔ a.toNat % 16 < b.toNat % 16)

/-- R133: the whole flags word after `FLAGS <- F`, whatever it was before (the bit positions are the spec's choice D2). -/
def Obligations.FlagsWordLayout : Prop :=
  ∀ (s : State) (f : Flags),
    (s.setFlags f).flags.toNat =
        f.cf.toNat + 4 * f.pf.toNat + 16 * f.af.toNat + 64 * f.zf.toNat + 128 * f.sf.toNat + 2048 * f.of.toNat ∧
      s.setFlags f = { s with flags := (s.setFlags f).flags }

/-- R34: ADD, SUB and CMP write all six flags (nothing of the old flags word survives or is read); MOV, the conditional
jumps and the loop family write none. -/
def Obligations.OnlyArithmeticWritesFlags : Prop :=
  ∀ (i : Instr) (s t : State), exec i s = .next t →
    ((i.op = .add ∨ i.op = .sub ∨ i.op = .cmp) →
        ∀ f : Word, exec i { s with flags := f } = .next t) ∧
      ((i.op ≠ .add ∧ i.op ≠ .sub ∧ i.op ≠ .cmp) → t.flags = s.flags)

/-! ## MOV -/

/-- R120: MOV r/m,reg and MOV reg,r/m, by d, at both widths and for every operand form. -/
def Obligations.MovRegisterMemoryResult : Prop :=
  ∀ (s : State) (w : Width) (reg : RegCode) (rm : RmOperand), s.mem.wf →
    Completes (.movRmReg .toRm w reg rm) s w (rmOperand w rm) (s.readReg w reg).toNat s.flags
        (2 + rm.displacementBytes) ∧
      Completes (.movRmReg .toReg w reg rm) s w (.reg w reg) (s.readOp w (rmOperand w rm)).toNat s.flags
        (2 + rm.displacementBytes)

/-- R121, R122: MOV r/m,immediate and MOV reg,immediate. -/
def Obligations.MovImmediateResult : Prop :=
  ∀ (s : State) (w : Width) (reg : RegCode) (rm : RmOperand) (imm : Imm), s.mem.wf → imm.fits w = true →
    Completes (.movRmImm w rm imm) s w (rmOperand w rm) (immNat imm) s.flags (2 + rm.displacementBytes + w.bytes) ∧
      Completes (.movRegImm w reg imm) s w (.reg w reg) (immNat imm) s.flags (1 + w.bytes)

/-- R123, R124: MOV acc,[addr] and MOV [addr],acc. -/
def Obligations.MovAccumulatorResult : Prop :=
  ∀ (s : State) (w : Width) (addr : Word), s.mem.wf →
    Completes (.movAccMem w addr) s w (.reg w 0) (s.memRead w addr).toNat s.flags 3 ∧
      Completes (.movMemAcc w addr) s w (.memDirect addr) (s.readReg w 0).toNat s.flags 3

/-- The frame of the five MOV forms: only the destination operand and `ip` change. -/
def Obligations.MovFrame : Prop :=
  ∀ (i : Instr) (s t : State) (w : Width) (dst src : Operand), s.mem.wf → i.op = .mov → i.width = some w →
    i.operands = some (dst, src) → exec i s = .next t →
    OnlyWrites w dst s t ∧ t.flags = s.flags ∧ SameControl s t

/-! ## ADD, SUB and CMP -/

/-- R135 to R137: the three forms of ADD. -/
def Obligations.AddResult : Prop :=
  ∀ (s : State) (w : Width), s.mem.wf →
    (∀ reg rm, AddsTo (.addRmReg .toRm w reg rm) s w (rmOperand w rm) (s.readReg w reg) (2 + rm.displacementBytes)) ∧
      (∀ reg rm, AddsTo (.addRmReg .toReg w reg rm) s w (.reg w reg) (s.readOp w (rmOperand w rm))
        (2 + rm.displacementBytes)) ∧
      (∀ sx rm imm, imm.fitsGroup sx w = true →
        AddsTo (.addRmImm sx w rm imm) s w (rmOperand w rm) (BitVec.ofNat w.bits (groupImmNat w imm))
          (2 + rm.displacementBytes + groupImmBytes sx w)) ∧
      ∀ imm, imm.fits w = true →
        AddsTo (.addAccImm w imm) s w (.reg w 0) (BitVec.ofNat w.bits (immNat imm)) (1 + w.bytes)

/-- R138 to R140: the three forms of SUB. -/
def Obligations.SubResult : Prop :=
  ∀ (s : State) (w : Width), s.mem.wf →
    (∀ reg rm, SubtractsFrom (.subRmReg .toRm w reg rm) s w (rmOperand w rm) (s.readReg w reg)
        (2 + rm.displacementBytes)) ∧
      (∀ reg rm, SubtractsFrom (.subRmReg .toReg w reg rm) s w (.reg w reg) (s.readOp w (rmOperand w rm))
        (2 + rm.displacementBytes)) ∧
      (∀ sx rm imm, imm.fitsGroup sx w = true →
        SubtractsFrom (.subRmImm sx w rm imm) s w (rmOperand w rm) (BitVec.ofNat w.bits (groupImmNat w imm))
          (2 + rm.displacementBytes + groupImmBytes sx w)) ∧
      ∀ imm, imm.fits w = true →
        SubtractsFrom (.subAccImm w imm) s w (.reg w 0) (BitVec.ofNat w.bits (immNat imm)) (1 + w.bytes)

/-- R141 to R143: the three forms of CMP, result and frame. -/
def Obligations.CmpResult : Prop :=
  ∀ (s : State) (w : Width),
    (∀ reg rm, Compares (.cmpRmReg .toRm w reg rm) s w (rmOperand w rm) (s.readReg w reg) (2 + rm.displacementBytes)) ∧
      (∀ reg rm, Compares (.cmpRmReg .toReg w reg rm) s w (.reg w reg) (s.readOp w (rmOperand w rm))
        (2 + rm.displacementBytes)) ∧
      (∀ sx rm imm, imm.fitsGroup sx w = true →
        Compares (.cmpRmImm sx w rm imm) s w (rmOperand w rm) (BitVec.ofNat w.bits (groupImmNat w imm))
          (2 + rm.displacementBytes + groupImmBytes sx w)) ∧
      ∀ imm, imm.fits w = true →
        Compares (.cmpAccImm w imm) s w (.reg w 0) (BitVec.ofNat w.bits (immNat imm)) (1 + w.bytes)

/-- R141: CMP sets the flags exactly as the SUB with the same operands. -/
def Obligations.CmpSetsTheFlagsOfSub : Prop :=
  ∀ (s t u : State),
    (∀ d w reg rm, exec (.cmpRmReg d w reg rm) s = .next t → exec (.subRmReg d w reg rm) s = .next u →
        t.flags = u.flags ∧ t.ip = u.ip) ∧
      (∀ sx w rm imm, exec (.cmpRmImm sx w rm imm) s = .next t → exec (.subRmImm sx w rm imm) s = .next u →
        t.flags = u.flags ∧ t.ip = u.ip) ∧
      ∀ w imm, exec (.cmpAccImm w imm) s = .next t → exec (.subAccImm w imm) s = .next u →
        t.flags = u.flags ∧ t.ip = u.ip

/-- The frame of ADD and SUB: only the destination operand, the flags and `ip` change, and the flags word's unimplemented
bits are 0. -/
def Obligations.AddSubFrame : Prop :=
  ∀ (i : Instr) (s t : State) (w : Width) (dst src : Operand), s.mem.wf → (i.op = .add ∨ i.op = .sub) →
    i.width = some w → i.operands = some (dst, src) → exec i s = .next t →
    OnlyWrites w dst s t ∧ t.flags &&& Flags.reservedMask = 0 ∧ SameControl s t

/-- R63: data memory is modified only by MOV, ADD and SUB with a memory destination, and never in DECODE_ONLY mode. -/
def Obligations.OnlyMemoryDestinationsModifyMemory : Prop :=
  (∀ (i : Instr) (s t : State), exec i s = .next t → t.mem ≠ s.mem →
      (i.op = .mov ∨ i.op = .add ∨ i.op = .sub) ∧
        ∃ dst src a, i.operands = some (dst, src) ∧ s.ea dst = some a) ∧
    ∀ s t : State, s.mode = .decodeOnly → step s = .next t → t.mem = s.mem

/-! ## Control transfer -/

/-- R163 to R168 and R171 to R174: the conditional jumps that test one flag (the set is the spec's choice D15). -/
def Obligations.SingleFlagJumps : Prop :=
  ConditionalJump 0x70 .jo (fun s => s.flags.getLsbD 11) ∧ ConditionalJump 0x71 .jno (fun s => !s.flags.getLsbD 11) ∧
    ConditionalJump 0x72 .jb (fun s => s.flags.getLsbD 0) ∧ ConditionalJump 0x73 .jnb (fun s => !s.flags.getLsbD 0) ∧
    ConditionalJump 0x74 .jz (fun s => s.flags.getLsbD 6) ∧ ConditionalJump 0x75 .jnz (fun s => !s.flags.getLsbD 6) ∧
    ConditionalJump 0x78 .js (fun s => s.flags.getLsbD 7) ∧ ConditionalJump 0x79 .jns (fun s => !s.flags.getLsbD 7) ∧
    ConditionalJump 0x7A .jp (fun s => s.flags.getLsbD 2) ∧ ConditionalJump 0x7B .jnp (fun s => !s.flags.getLsbD 2)

/-- R169, R170 and R175 to R178: the conditional jumps that test several flags (the set is the spec's choice D15). -/
def Obligations.ComparisonJumps : Prop :=
  ConditionalJump 0x76 .jbe (fun s => s.flags.getLsbD 0 || s.flags.getLsbD 6) ∧
    ConditionalJump 0x77 .jnbe (fun s => !s.flags.getLsbD 0 && !s.flags.getLsbD 6) ∧
    ConditionalJump 0x7C .jl (fun s => s.flags.getLsbD 7 ^^ s.flags.getLsbD 11) ∧
    ConditionalJump 0x7D .jnl (fun s => !(s.flags.getLsbD 7 ^^ s.flags.getLsbD 11)) ∧
    ConditionalJump 0x7E .jle (fun s => s.flags.getLsbD 6 || (s.flags.getLsbD 7 ^^ s.flags.getLsbD 11)) ∧
    ConditionalJump 0x7F .jnle (fun s => !s.flags.getLsbD 6 && !(s.flags.getLsbD 7 ^^ s.flags.getLsbD 11))

/-- After CMP of a with b, in every form of CMP, the conditional jumps branch as their names say: below and less are the
unsigned and the signed order of a and b, zero is their equality (the names of R165 to R170 and R175 to R178). -/
def Obligations.JumpAfterCompareDecidesOrder : Prop :=
  ∀ (cmp : Instr) (w : Width) (dst src : Operand) (s t : State) (rel : Byte), cmp.op = .cmp → cmp.width = some w →
    cmp.operands = some (dst, src) → exec cmp s = .next t →
    let a := s.readOp w dst
    let b := s.readOp w src
    let goes (i : Instr) (taken : Bool) : Prop := ∃ u, exec i t = .next u ∧ JumpsTo t u taken rel
    goes (.jz rel) (decide (a = b)) ∧ goes (.jnz rel) (decide (a ≠ b)) ∧
      goes (.jb rel) (decide (a.toNat < b.toNat)) ∧ goes (.jnb rel) (decide (b.toNat ≤ a.toNat)) ∧
      goes (.jbe rel) (decide (a.toNat ≤ b.toNat)) ∧ goes (.jnbe rel) (decide (b.toNat < a.toNat)) ∧
      goes (.jl rel) (decide (a.toInt < b.toInt)) ∧ goes (.jnl rel) (decide (b.toInt ≤ a.toInt)) ∧
      goes (.jle rel) (decide (a.toInt ≤ b.toInt)) ∧ goes (.jnle rel) (decide (b.toInt < a.toInt))

/-- R180 to R183: the loop family (its meaning is the spec's choice D16). -/
def Obligations.LoopFamily : Prop :=
  CountingLoop 0xE0 .loopnz (fun zf => !zf) ∧ CountingLoop 0xE1 .loopz (fun zf => zf) ∧
    CountingLoop 0xE2 .loop (fun _ => true) ∧
    ConditionalJump 0xE3 .jcxz (fun s => decide (s.regs.cx.toNat = 0))

/-- R160, R161: in a sound state the sequential advance fits in 16 bits and stays inside the stream, and any other value of
`ip` is the taken target of a J8 form. -/
def Obligations.InstructionPointerAdvance : Prop :=
  ∀ (s u : State) (i : Instr) (r : List Byte), s.Sound → s.status = .running → decode s.fetchBytes = .ok (i, r) →
    exec i s = .next u →
    s.ip.toNat + i.length ≤ s.stream.length ∧ s.stream.length ≤ 65535 ∧
      (u.ip.toNat = s.ip.toNat + i.length ∨
        ∃ rel, i.rel8 = some rel ∧
          (u.ip.toNat : Int) = ((s.ip.toNat : Int) + (i.length : Int) + rel.toInt) % 65536)

/-- R39: no step of any run writes the stream; MODE is latched with it. -/
def Obligations.StreamAndModeAreFixed : Prop :=
  ∀ s t : State, Steps s t → t.stream = s.stream ∧ t.mode = s.mode
end

