-- ==== Sys2Proof/Laws/Bits.lean ====
section
/-! SUPPORT. The bit-field, byte-order and flag-word helpers, each said once. -/

namespace Sys2Proof

@[simp] theorem lowByte_wordOf (lo hi : Byte) : lowByte (wordOf lo hi) = lo := by
  apply BitVec.eq_of_getLsbD_eq; intro i hi'
  simp only [lowByte, wordOf, BitVec.getLsbD_extractLsb', BitVec.getLsbD_append]
  simp [hi']

@[simp] theorem highByte_wordOf (lo hi : Byte) : highByte (wordOf lo hi) = hi := by
  apply BitVec.eq_of_getLsbD_eq; intro i hi'
  simp only [highByte, wordOf, BitVec.getLsbD_extractLsb', BitVec.getLsbD_append]
  simp [hi']

@[simp] theorem wordOf_lowByte_highByte (v : Word) : wordOf (lowByte v) (highByte v) = v := by
  apply BitVec.eq_of_getLsbD_eq; intro i hi'
  simp only [highByte, lowByte, wordOf, BitVec.getLsbD_extractLsb', BitVec.getLsbD_append]
  by_cases h : i < 8
  · simp [h]
  · have h1 : i - 8 < 8 := by omega
    have h2 : 8 + (i - 8) = i := by omega
    simp [h, h1, h2]

theorem toNat_wordOf (lo hi : Byte) : (wordOf lo hi).toNat = lo.toNat + 256 * hi.toNat := by
  have := lo.isLt
  simp only [wordOf, BitVec.toNat_append]
  rw [Nat.shiftLeft_eq, Nat.mul_comm, ← Nat.two_pow_add_eq_or_of_lt lo.isLt]
  omega

theorem toNat_lowByte (v : Word) : (lowByte v).toNat = v.toNat % 256 := by simp [lowByte]

theorem toNat_highByte (v : Word) : (highByte v).toNat = v.toNat / 256 := by
  have := v.isLt
  simp [highByte, Nat.shiftRight_eq_div_pow]
  omega

theorem regCode_cases (c : RegCode) :
    c = 0 ∨ c = 1 ∨ c = 2 ∨ c = 3 ∨ c = 4 ∨ c = 5 ∨ c = 6 ∨ c = 7 := by
  revert c; decide

/-! ## The modrm byte -/

theorem fields_modRm :
    ∀ (m : BitVec 2) (r k : BitVec 3),
      fieldMod (modRm m r k) = m ∧ fieldReg (modRm m r k) = r ∧ fieldRm (modRm m r k) = k := by
  decide

@[simp] theorem fieldMod_modRm (m : BitVec 2) (r k : BitVec 3) : fieldMod (modRm m r k) = m := (fields_modRm m r k).1

@[simp] theorem fieldReg_modRm (m : BitVec 2) (r k : BitVec 3) : fieldReg (modRm m r k) = r := (fields_modRm m r k).2.1

@[simp] theorem fieldRm_modRm (m : BitVec 2) (r k : BitVec 3) : fieldRm (modRm m r k) = k := (fields_modRm m r k).2.2

theorem modRm_fields : ∀ b : Byte, modRm (fieldMod b) (fieldReg b) (fieldRm b) = b := by decide

@[simp] theorem BaseExpr.ofCode_code (b : BaseExpr) : BaseExpr.ofCode b.code = b := by cases b <;> rfl

@[simp] theorem BaseExpr.code_ofCode (c : BitVec 3) : (BaseExpr.ofCode c).code = c := by revert c; decide

namespace Machine

/-! ## The flags word -/

@[simp] theorem Flags.toWord_cf (f : Flags) : f.toWord.getLsbD 0 = f.cf := by
  rcases f with ⟨a, b, c, d, e, g⟩; revert a b c d e g; decide

@[simp] theorem Flags.toWord_pf (f : Flags) : f.toWord.getLsbD 2 = f.pf := by
  rcases f with ⟨a, b, c, d, e, g⟩; revert a b c d e g; decide

@[simp] theorem Flags.toWord_af (f : Flags) : f.toWord.getLsbD 4 = f.af := by
  rcases f with ⟨a, b, c, d, e, g⟩; revert a b c d e g; decide

@[simp] theorem Flags.toWord_zf (f : Flags) : f.toWord.getLsbD 6 = f.zf := by
  rcases f with ⟨a, b, c, d, e, g⟩; revert a b c d e g; decide

@[simp] theorem Flags.toWord_sf (f : Flags) : f.toWord.getLsbD 7 = f.sf := by
  rcases f with ⟨a, b, c, d, e, g⟩; revert a b c d e g; decide

@[simp] theorem Flags.toWord_of (f : Flags) : f.toWord.getLsbD 11 = f.of := by
  rcases f with ⟨a, b, c, d, e, g⟩; revert a b c d e g; decide

@[simp] theorem Flags.toWord_reserved (f : Flags) : f.toWord &&& Flags.reservedMask = 0 := by
  rcases f with ⟨a, b, c, d, e, g⟩; revert a b c d e g; decide

end Machine

end Sys2Proof
end

