-- ==== Sys2Proof/Laws/Decode.lean ====
section
/-! SUPPORT. The decoder's parts: what each consumes, and that each reads back what the encoder writes. -/

namespace Sys2Proof

@[simp] theorem wordBytes_length (v : Word) : (wordBytes v).length = 2 := rfl

@[simp] theorem nextByte_cons (b : Byte) (r : List Byte) : nextByte (b :: r) = .ok (b, r) := rfl

@[simp] theorem nextWord_wordBytes (v : Word) (r : List Byte) : nextWord (wordBytes v ++ r) = .ok (v, r) := by
  simp [wordBytes, nextWord]

theorem nextByte_ok {bs r : List Byte} {b : Byte} (h : nextByte bs = .ok (b, r)) : bs = b :: r := by
  cases bs <;> simp_all [nextByte]

theorem nextWord_ok {bs r : List Byte} {v : Word} (h : nextWord bs = .ok (v, r)) : bs = wordBytes v ++ r := by
  match bs with
  | [] => simp [nextWord] at h
  | [_] => simp [nextWord] at h
  | lo :: hi :: r' =>
    simp only [nextWord, Except.ok.injEq, Prod.mk.injEq] at h
    obtain ⟨rfl, rfl⟩ := h
    simp [wordBytes]

/-- The encoded operand: the modrm byte with its mod and rm fields, and the displacement bytes. -/
theorem RmOperand.encode_head (rm : RmOperand) (reg : BitVec 3) :
    ∃ b1 ds, rm.encode reg = b1 :: ds ∧ fieldReg b1 = reg ∧ ds.length = rm.displacementBytes := by
  cases rm <;> exact ⟨_, _, rfl, by simp, rfl⟩

theorem RmOperand.encode_length (rm : RmOperand) (reg : BitVec 3) :
    (rm.encode reg).length = 1 + rm.displacementBytes := by
  cases rm <;> rfl

theorem Imm.encode_length_of_fits {i : Imm} {w : Width} (h : i.fits w = true) : i.encode.length = w.bytes := by
  cases i <;> cases w <;> simp_all [Imm.fits, Imm.encode, Width.bytes]

theorem Imm.encode_length_of_fitsGroup {i : Imm} {s : Bool} {w : Width} (h : i.fitsGroup s w = true) :
    i.encode.length = groupImmBytes s w := by
  cases i <;> cases w <;> cases s <;> simp_all [Imm.fitsGroup, Imm.encode, groupImmBytes]

/-- The displacement bytes are those of R79. -/
theorem decodeRm_ok {mod : BitVec 2} {rm : BitVec 3} {bs r : List Byte} {o : RmOperand}
    (h : decodeRm mod rm bs = .ok (o, r)) : bs.length = r.length + displacementSize mod rm := by
  unfold decodeRm at h
  unfold displacementSize
  split at h
  · by_cases hr : rm = 6
    · rw [if_pos hr] at h ⊢
      cases hw : nextWord bs with
      | ok p =>
        obtain ⟨a, r'⟩ := p
        simp only [hw, Except.ok.injEq, Prod.mk.injEq] at h
        rw [nextWord_ok hw, ← h.2]; simp; omega
      | error e => simp [hw] at h
    · rw [if_neg hr] at h ⊢
      simp only [Except.ok.injEq, Prod.mk.injEq] at h
      rw [h.2]; simp
  · cases hw : nextByte bs with
    | ok p =>
      obtain ⟨a, r'⟩ := p
      simp only [hw, Except.ok.injEq, Prod.mk.injEq] at h
      rw [nextByte_ok hw, ← h.2]; simp
    | error e => simp [hw] at h
  · cases hw : nextWord bs with
    | ok p =>
      obtain ⟨a, r'⟩ := p
      simp only [hw, Except.ok.injEq, Prod.mk.injEq] at h
      rw [nextWord_ok hw, ← h.2]; simp; omega
    | error e => simp [hw] at h
  · simp only [Except.ok.injEq, Prod.mk.injEq] at h
    rw [h.2]; simp

/-- The decoder reads back an encodable r/m operand, with its reg field and the bytes after it. -/
theorem decodeRm_encode {rm : RmOperand} (h : rm.wf = true) (reg : BitVec 3) (r : List Byte) :
    ∃ b1 ds, rm.encode reg ++ r = b1 :: (ds ++ r) ∧ fieldReg b1 = reg ∧
      decodeRm (fieldMod b1) (fieldRm b1) (ds ++ r) = .ok (rm, r) := by
  cases rm with
  | reg c => exact ⟨_, [], rfl, by simp, by simp [decodeRm]⟩
  | direct a => exact ⟨_, wordBytes a, rfl, by simp, by simp [decodeRm]⟩
  | ind b =>
    refine ⟨_, [], rfl, by simp, ?_⟩
    cases b <;> simp [RmOperand.wf] at h <;> simp [decodeRm, BaseExpr.code, BaseExpr.ofCode]
  | ind8 b d => exact ⟨_, [d], rfl, by simp, by simp [decodeRm]⟩
  | ind16 b d => exact ⟨_, wordBytes d, rfl, by simp, by simp [decodeRm]⟩

theorem decodeImm_of_fits {i : Imm} {w : Width} (h : i.fits w = true) (r : List Byte) :
    decodeImm w.bytes (i.encode ++ r) = .ok (i, r) := by
  cases i <;> cases w <;> simp_all [Imm.fits, Imm.encode, Width.bytes, decodeImm]

theorem decodeImm_of_fitsGroup {i : Imm} {s : Bool} {w : Width} (h : i.fitsGroup s w = true) (r : List Byte) :
    decodeImm (groupImmBytes s w) (i.encode ++ r) = .ok (i, r) := by
  cases i <;> cases w <;> cases s <;> simp_all [Imm.fitsGroup, Imm.encode, groupImmBytes, decodeImm]

@[simp] theorem decode_nil : decode [] = .error .truncatedInstruction := rfl

theorem decode_cons (b0 : Byte) (r : List Byte) : decode (b0 :: r) = decodeForm b0 r := rfl

/-- A leading byte that no pattern of R84 matches. -/
def NoForm (b0 : Byte) : Prop :=
  ¬b0 &&& 0xFC = 0x88 ∧
    ¬b0 &&& 0xFC = 0x00 ∧
    ¬b0 &&& 0xFC = 0x28 ∧
    ¬b0 &&& 0xFC = 0x38 ∧
    ¬b0 &&& 0xFE = 0xC6 ∧
    ¬b0 &&& 0xFC = 0x80 ∧
    ¬b0 &&& 0xF0 = 0xB0 ∧
    ¬b0 &&& 0xFE = 0xA0 ∧
    ¬b0 &&& 0xFE = 0xA2 ∧
    ¬b0 &&& 0xFE = 0x04 ∧
    ¬b0 &&& 0xFE = 0x2C ∧
    ¬b0 &&& 0xFE = 0x3C ∧
    ¬b0 &&& 0xF0 = 0x70 ∧
    ¬b0 &&& 0xFC = 0xE0

/-- The forms of the first byte, one case each. -/
theorem decodeForm_cases (b0 : Byte) (r : List Byte) :
    (b0 &&& 0xFC = 0x88 ∧ decodeForm b0 r = decodeRmReg .movRmReg b0 r) ∨
    (b0 &&& 0xFC = 0x00 ∧ decodeForm b0 r = decodeRmReg .addRmReg b0 r) ∨
    (b0 &&& 0xFC = 0x28 ∧ decodeForm b0 r = decodeRmReg .subRmReg b0 r) ∨
    (b0 &&& 0xFC = 0x38 ∧ decodeForm b0 r = decodeRmReg .cmpRmReg b0 r) ∨
    (b0 &&& 0xFE = 0xC6 ∧ decodeForm b0 r = decodeMovRmImm b0 r) ∨
    (b0 &&& 0xFC = 0x80 ∧ decodeForm b0 r = decodeGroup b0 r) ∨
    (b0 &&& 0xF0 = 0xB0 ∧ decodeForm b0 r = decodeImmOnly (.movRegImm (fieldWRegImm b0) (fieldRegImm b0)) (fieldWRegImm b0) r) ∨
    (b0 &&& 0xFE = 0xA0 ∧ decodeForm b0 r = decodeAccMem .movAccMem b0 r) ∨
    (b0 &&& 0xFE = 0xA2 ∧ decodeForm b0 r = decodeAccMem .movMemAcc b0 r) ∨
    (b0 &&& 0xFE = 0x04 ∧ decodeForm b0 r = decodeImmOnly (.addAccImm (fieldW b0)) (fieldW b0) r) ∨
    (b0 &&& 0xFE = 0x2C ∧ decodeForm b0 r = decodeImmOnly (.subAccImm (fieldW b0)) (fieldW b0) r) ∨
    (b0 &&& 0xFE = 0x3C ∧ decodeForm b0 r = decodeImmOnly (.cmpAccImm (fieldW b0)) (fieldW b0) r) ∨
    (b0 &&& 0xF0 = 0x70 ∧ decodeForm b0 r = decodeRel (jccOf (b0.extractLsb' 0 4)) r) ∨
    (b0 &&& 0xFC = 0xE0 ∧ decodeForm b0 r = decodeRel (loopOf (b0.extractLsb' 0 2)) r) ∨
    (NoForm b0 ∧ decodeForm b0 r = .error (.unrecognizedOpcode [b0])) := by
  unfold decodeForm
  by_cases h1 : b0 &&& 0xFC = 0x88
  · rw [if_pos h1]; exact .inl ⟨h1, rfl⟩
  rw [if_neg h1]
  by_cases h2 : b0 &&& 0xFC = 0x00
  · rw [if_pos h2]; exact .inr (.inl ⟨h2, rfl⟩)
  rw [if_neg h2]
  by_cases h3 : b0 &&& 0xFC = 0x28
  · rw [if_pos h3]; exact .inr (.inr (.inl ⟨h3, rfl⟩))
  rw [if_neg h3]
  by_cases h4 : b0 &&& 0xFC = 0x38
  · rw [if_pos h4]; exact .inr (.inr (.inr (.inl ⟨h4, rfl⟩)))
  rw [if_neg h4]
  by_cases h5 : b0 &&& 0xFE = 0xC6
  · rw [if_pos h5]; exact .inr (.inr (.inr (.inr (.inl ⟨h5, rfl⟩))))
  rw [if_neg h5]
  by_cases h6 : b0 &&& 0xFC = 0x80
  · rw [if_pos h6]; exact .inr (.inr (.inr (.inr (.inr (.inl ⟨h6, rfl⟩)))))
  rw [if_neg h6]
  by_cases h7 : b0 &&& 0xF0 = 0xB0
  · rw [if_pos h7]; exact .inr (.inr (.inr (.inr (.inr (.inr (.inl ⟨h7, rfl⟩))))))
  rw [if_neg h7]
  by_cases h8 : b0 &&& 0xFE = 0xA0
  · rw [if_pos h8]; exact .inr (.inr (.inr (.inr (.inr (.inr (.inr (.inl ⟨h8, rfl⟩)))))))
  rw [if_neg h8]
  by_cases h9 : b0 &&& 0xFE = 0xA2
  · rw [if_pos h9]; exact .inr (.inr (.inr (.inr (.inr (.inr (.inr (.inr (.inl ⟨h9, rfl⟩))))))))
  rw [if_neg h9]
  by_cases h10 : b0 &&& 0xFE = 0x04
  · rw [if_pos h10]; exact .inr (.inr (.inr (.inr (.inr (.inr (.inr (.inr (.inr (.inl ⟨h10, rfl⟩)))))))))
  rw [if_neg h10]
  by_cases h11 : b0 &&& 0xFE = 0x2C
  · rw [if_pos h11]; exact .inr (.inr (.inr (.inr (.inr (.inr (.inr (.inr (.inr (.inr (.inl ⟨h11, rfl⟩))))))))))
  rw [if_neg h11]
  by_cases h12 : b0 &&& 0xFE = 0x3C
  · rw [if_pos h12]; exact .inr (.inr (.inr (.inr (.inr (.inr (.inr (.inr (.inr (.inr (.inr (.inl ⟨h12, rfl⟩)))))))))))
  rw [if_neg h12]
  by_cases h13 : b0 &&& 0xF0 = 0x70
  · rw [if_pos h13]; exact .inr (.inr (.inr (.inr (.inr (.inr (.inr (.inr (.inr (.inr (.inr (.inr (.inl ⟨h13, rfl⟩))))))))))))
  rw [if_neg h13]
  by_cases h14 : b0 &&& 0xFC = 0xE0
  · rw [if_pos h14]; exact .inr (.inr (.inr (.inr (.inr (.inr (.inr (.inr (.inr (.inr (.inr (.inr (.inr (.inl ⟨h14, rfl⟩)))))))))))))
  rw [if_neg h14]
  exact .inr (.inr (.inr (.inr (.inr (.inr (.inr (.inr (.inr (.inr (.inr (.inr (.inr (.inr (⟨⟨h1, h2, h3, h4, h5, h6, h7, h8, h9, h10, h11, h12, h13, h14⟩, rfl⟩))))))))))))))

end Sys2Proof
end

