-- ==== Sys2Proof/Laws/State.lean ====
section
/-! SUPPORT. One lemma per field of the state per update, so that no later proof unfolds a record update. -/

namespace Sys2Proof.Machine

variable (s : State)

/-! ## The named updates -/

@[simp] theorem State.setX_regs (c : RegCode) (v : Word) : (s.setX c v).regs = s.regs.set c v := rfl
@[simp] theorem State.setX_ip (c : RegCode) (v : Word) : (s.setX c v).ip = s.ip := rfl
@[simp] theorem State.setX_flags (c : RegCode) (v : Word) : (s.setX c v).flags = s.flags := rfl
@[simp] theorem State.setX_mem (c : RegCode) (v : Word) : (s.setX c v).mem = s.mem := rfl
@[simp] theorem State.setX_stream (c : RegCode) (v : Word) : (s.setX c v).stream = s.stream := rfl
@[simp] theorem State.setX_mode (c : RegCode) (v : Word) : (s.setX c v).mode = s.mode := rfl
@[simp] theorem State.setX_status (c : RegCode) (v : Word) : (s.setX c v).status = s.status := rfl
@[simp] theorem State.setX_fault (c : RegCode) (v : Word) : (s.setX c v).fault = s.fault := rfl
@[simp] theorem State.setX_retired (c : RegCode) (v : Word) : (s.setX c v).retired = s.retired := rfl
@[simp] theorem State.setX_trace (c : RegCode) (v : Word) : (s.setX c v).trace = s.trace := rfl

@[simp] theorem State.setX8_ip (c : RegCode) (v : Byte) : (s.setX8 c v).ip = s.ip := by unfold State.setX8; split <;> rfl
@[simp] theorem State.setX8_flags (c : RegCode) (v : Byte) : (s.setX8 c v).flags = s.flags := by unfold State.setX8; split <;> rfl
@[simp] theorem State.setX8_mem (c : RegCode) (v : Byte) : (s.setX8 c v).mem = s.mem := by unfold State.setX8; split <;> rfl
@[simp] theorem State.setX8_stream (c : RegCode) (v : Byte) : (s.setX8 c v).stream = s.stream := by unfold State.setX8; split <;> rfl
@[simp] theorem State.setX8_mode (c : RegCode) (v : Byte) : (s.setX8 c v).mode = s.mode := by unfold State.setX8; split <;> rfl
@[simp] theorem State.setX8_status (c : RegCode) (v : Byte) : (s.setX8 c v).status = s.status := by unfold State.setX8; split <;> rfl
@[simp] theorem State.setX8_fault (c : RegCode) (v : Byte) : (s.setX8 c v).fault = s.fault := by unfold State.setX8; split <;> rfl
@[simp] theorem State.setX8_retired (c : RegCode) (v : Byte) : (s.setX8 c v).retired = s.retired := by unfold State.setX8; split <;> rfl
@[simp] theorem State.setX8_trace (c : RegCode) (v : Byte) : (s.setX8 c v).trace = s.trace := by unfold State.setX8; split <;> rfl

@[simp] theorem State.writeReg_ip (w : Width) (c : RegCode) (v : BitVec w.bits) : (s.writeReg w c v).ip = s.ip := by cases w <;> simp [State.writeReg]
@[simp] theorem State.writeReg_flags (w : Width) (c : RegCode) (v : BitVec w.bits) : (s.writeReg w c v).flags = s.flags := by cases w <;> simp [State.writeReg]
@[simp] theorem State.writeReg_mem (w : Width) (c : RegCode) (v : BitVec w.bits) : (s.writeReg w c v).mem = s.mem := by cases w <;> simp [State.writeReg]
@[simp] theorem State.writeReg_stream (w : Width) (c : RegCode) (v : BitVec w.bits) : (s.writeReg w c v).stream = s.stream := by cases w <;> simp [State.writeReg]
@[simp] theorem State.writeReg_mode (w : Width) (c : RegCode) (v : BitVec w.bits) : (s.writeReg w c v).mode = s.mode := by cases w <;> simp [State.writeReg]
@[simp] theorem State.writeReg_status (w : Width) (c : RegCode) (v : BitVec w.bits) : (s.writeReg w c v).status = s.status := by cases w <;> simp [State.writeReg]
@[simp] theorem State.writeReg_fault (w : Width) (c : RegCode) (v : BitVec w.bits) : (s.writeReg w c v).fault = s.fault := by cases w <;> simp [State.writeReg]
@[simp] theorem State.writeReg_retired (w : Width) (c : RegCode) (v : BitVec w.bits) : (s.writeReg w c v).retired = s.retired := by cases w <;> simp [State.writeReg]
@[simp] theorem State.writeReg_trace (w : Width) (c : RegCode) (v : BitVec w.bits) : (s.writeReg w c v).trace = s.trace := by cases w <;> simp [State.writeReg]

@[simp] theorem State.setMemByte_regs (a : Word) (v : Byte) : (s.setMemByte a v).regs = s.regs := rfl
@[simp] theorem State.setMemByte_ip (a : Word) (v : Byte) : (s.setMemByte a v).ip = s.ip := rfl
@[simp] theorem State.setMemByte_flags (a : Word) (v : Byte) : (s.setMemByte a v).flags = s.flags := rfl
@[simp] theorem State.setMemByte_mem (a : Word) (v : Byte) : (s.setMemByte a v).mem = s.mem.write a.toNat v := rfl
@[simp] theorem State.setMemByte_stream (a : Word) (v : Byte) : (s.setMemByte a v).stream = s.stream := rfl
@[simp] theorem State.setMemByte_mode (a : Word) (v : Byte) : (s.setMemByte a v).mode = s.mode := rfl
@[simp] theorem State.setMemByte_status (a : Word) (v : Byte) : (s.setMemByte a v).status = s.status := rfl
@[simp] theorem State.setMemByte_fault (a : Word) (v : Byte) : (s.setMemByte a v).fault = s.fault := rfl
@[simp] theorem State.setMemByte_retired (a : Word) (v : Byte) : (s.setMemByte a v).retired = s.retired := rfl
@[simp] theorem State.setMemByte_trace (a : Word) (v : Byte) : (s.setMemByte a v).trace = s.trace := rfl

@[simp] theorem State.memWrite_regs (w : Width) (a : Word) (v : BitVec w.bits) : (s.memWrite w a v).regs = s.regs := by cases w <;> rfl
@[simp] theorem State.memWrite_ip (w : Width) (a : Word) (v : BitVec w.bits) : (s.memWrite w a v).ip = s.ip := by cases w <;> rfl
@[simp] theorem State.memWrite_flags (w : Width) (a : Word) (v : BitVec w.bits) : (s.memWrite w a v).flags = s.flags := by cases w <;> rfl
@[simp] theorem State.memWrite_stream (w : Width) (a : Word) (v : BitVec w.bits) : (s.memWrite w a v).stream = s.stream := by cases w <;> rfl
@[simp] theorem State.memWrite_mode (w : Width) (a : Word) (v : BitVec w.bits) : (s.memWrite w a v).mode = s.mode := by cases w <;> rfl
@[simp] theorem State.memWrite_status (w : Width) (a : Word) (v : BitVec w.bits) : (s.memWrite w a v).status = s.status := by cases w <;> rfl
@[simp] theorem State.memWrite_fault (w : Width) (a : Word) (v : BitVec w.bits) : (s.memWrite w a v).fault = s.fault := by cases w <;> rfl
@[simp] theorem State.memWrite_retired (w : Width) (a : Word) (v : BitVec w.bits) : (s.memWrite w a v).retired = s.retired := by cases w <;> rfl
@[simp] theorem State.memWrite_trace (w : Width) (a : Word) (v : BitVec w.bits) : (s.memWrite w a v).trace = s.trace := by cases w <;> rfl

@[simp] theorem State.setFlags_regs (f : Flags) : (s.setFlags f).regs = s.regs := rfl
@[simp] theorem State.setFlags_ip (f : Flags) : (s.setFlags f).ip = s.ip := rfl
@[simp] theorem State.setFlags_flags (f : Flags) : (s.setFlags f).flags = f.toWord := rfl
@[simp] theorem State.setFlags_mem (f : Flags) : (s.setFlags f).mem = s.mem := rfl
@[simp] theorem State.setFlags_stream (f : Flags) : (s.setFlags f).stream = s.stream := rfl
@[simp] theorem State.setFlags_mode (f : Flags) : (s.setFlags f).mode = s.mode := rfl
@[simp] theorem State.setFlags_status (f : Flags) : (s.setFlags f).status = s.status := rfl
@[simp] theorem State.setFlags_fault (f : Flags) : (s.setFlags f).fault = s.fault := rfl
@[simp] theorem State.setFlags_retired (f : Flags) : (s.setFlags f).retired = s.retired := rfl
@[simp] theorem State.setFlags_trace (f : Flags) : (s.setFlags f).trace = s.trace := rfl

@[simp] theorem State.setIp_regs (a : Word) : (s.setIp a).regs = s.regs := rfl
@[simp] theorem State.setIp_ip (a : Word) : (s.setIp a).ip = a := rfl
@[simp] theorem State.setIp_flags (a : Word) : (s.setIp a).flags = s.flags := rfl
@[simp] theorem State.setIp_mem (a : Word) : (s.setIp a).mem = s.mem := rfl
@[simp] theorem State.setIp_stream (a : Word) : (s.setIp a).stream = s.stream := rfl
@[simp] theorem State.setIp_mode (a : Word) : (s.setIp a).mode = s.mode := rfl
@[simp] theorem State.setIp_status (a : Word) : (s.setIp a).status = s.status := rfl
@[simp] theorem State.setIp_fault (a : Word) : (s.setIp a).fault = s.fault := rfl
@[simp] theorem State.setIp_retired (a : Word) : (s.setIp a).retired = s.retired := rfl
@[simp] theorem State.setIp_trace (a : Word) : (s.setIp a).trace = s.trace := rfl

@[simp] theorem State.branch_regs (b : Bool) (fin : Word) (rel : Byte) : (s.branch b fin rel).regs = s.regs := rfl
@[simp] theorem State.branch_ip (b : Bool) (fin : Word) (rel : Byte) : (s.branch b fin rel).ip = if b then branchTarget fin rel else fin := rfl
@[simp] theorem State.branch_flags (b : Bool) (fin : Word) (rel : Byte) : (s.branch b fin rel).flags = s.flags := rfl
@[simp] theorem State.branch_mem (b : Bool) (fin : Word) (rel : Byte) : (s.branch b fin rel).mem = s.mem := rfl
@[simp] theorem State.branch_stream (b : Bool) (fin : Word) (rel : Byte) : (s.branch b fin rel).stream = s.stream := rfl
@[simp] theorem State.branch_mode (b : Bool) (fin : Word) (rel : Byte) : (s.branch b fin rel).mode = s.mode := rfl
@[simp] theorem State.branch_status (b : Bool) (fin : Word) (rel : Byte) : (s.branch b fin rel).status = s.status := rfl
@[simp] theorem State.branch_fault (b : Bool) (fin : Word) (rel : Byte) : (s.branch b fin rel).fault = s.fault := rfl
@[simp] theorem State.branch_retired (b : Bool) (fin : Word) (rel : Byte) : (s.branch b fin rel).retired = s.retired := rfl
@[simp] theorem State.branch_trace (b : Bool) (fin : Word) (rel : Byte) : (s.branch b fin rel).trace = s.trace := rfl

@[simp] theorem State.raise_regs (c : Fault) (bs : List Byte) : (s.raise c bs).regs = s.regs := rfl
@[simp] theorem State.raise_ip (c : Fault) (bs : List Byte) : (s.raise c bs).ip = s.ip := rfl
@[simp] theorem State.raise_flags (c : Fault) (bs : List Byte) : (s.raise c bs).flags = s.flags := rfl
@[simp] theorem State.raise_mem (c : Fault) (bs : List Byte) : (s.raise c bs).mem = s.mem := rfl
@[simp] theorem State.raise_stream (c : Fault) (bs : List Byte) : (s.raise c bs).stream = s.stream := rfl
@[simp] theorem State.raise_mode (c : Fault) (bs : List Byte) : (s.raise c bs).mode = s.mode := rfl
@[simp] theorem State.raise_status (c : Fault) (bs : List Byte) : (s.raise c bs).status = .faulted := rfl
@[simp] theorem State.raise_fault (c : Fault) (bs : List Byte) : (s.raise c bs).fault = some ⟨c, s.ip, bs⟩ := rfl
@[simp] theorem State.raise_retired (c : Fault) (bs : List Byte) : (s.raise c bs).retired = s.retired := rfl
@[simp] theorem State.raise_trace (c : Fault) (bs : List Byte) : (s.raise c bs).trace = s.trace := rfl

/-! ## Retirement -/

@[simp] theorem State.retire_regs (r : TraceRecord) : (s.retire r).regs = s.regs := rfl
@[simp] theorem State.retire_ip (r : TraceRecord) : (s.retire r).ip = s.ip := rfl
@[simp] theorem State.retire_flags (r : TraceRecord) : (s.retire r).flags = s.flags := rfl
@[simp] theorem State.retire_mem (r : TraceRecord) : (s.retire r).mem = s.mem := rfl
@[simp] theorem State.retire_stream (r : TraceRecord) : (s.retire r).stream = s.stream := rfl
@[simp] theorem State.retire_mode (r : TraceRecord) : (s.retire r).mode = s.mode := rfl
@[simp] theorem State.retire_status (r : TraceRecord) : (s.retire r).status = if s.stream.length ≤ s.ip.toNat then .ended else s.status := rfl
@[simp] theorem State.retire_fault (r : TraceRecord) : (s.retire r).fault = s.fault := rfl
@[simp] theorem State.retire_retired (r : TraceRecord) : (s.retire r).retired = s.retired + 1 := rfl
@[simp] theorem State.retire_trace (r : TraceRecord) : (s.retire r).trace = s.trace ++ [r] := rfl

/-! ## Launch and reset -/

@[simp] theorem State.launched_regs (bs : List Byte) (m : Mode) : (State.launched bs m).regs = ⟨0, 0, 0, 0, 0, 0, 0, 0⟩ := rfl
@[simp] theorem State.launched_ip (bs : List Byte) (m : Mode) : (State.launched bs m).ip = 0 := rfl
@[simp] theorem State.launched_flags (bs : List Byte) (m : Mode) : (State.launched bs m).flags = 0 := rfl
@[simp] theorem State.launched_mem (bs : List Byte) (m : Mode) : (State.launched bs m).mem = [] := rfl
@[simp] theorem State.launched_stream (bs : List Byte) (m : Mode) : (State.launched bs m).stream = bs := rfl
@[simp] theorem State.launched_mode (bs : List Byte) (m : Mode) : (State.launched bs m).mode = m := rfl
@[simp] theorem State.launched_status (bs : List Byte) (m : Mode) : (State.launched bs m).status = if bs.length = 0 then .ended else .running := rfl
@[simp] theorem State.launched_fault (bs : List Byte) (m : Mode) : (State.launched bs m).fault = none := rfl
@[simp] theorem State.launched_retired (bs : List Byte) (m : Mode) : (State.launched bs m).retired = 0 := rfl
@[simp] theorem State.launched_trace (bs : List Byte) (m : Mode) : (State.launched bs m).trace = [] := rfl

/-! ## Results -/

@[simp] theorem onNext_next (t : State) (f : State → State) : onNext (.next t) f = .next (f t) := rfl

@[simp] theorem onNext_fault (c : Fault) (f : State → State) : onNext (.fault c) f = .fault c := rfl

@[simp] theorem onNext_refused (r : Refusal) (f : State → State) : onNext (.refused r) f = .refused r := rfl

end Sys2Proof.Machine
end

