-- ==== Sys2Proof/Laws/Memory.lean ====
section
/-! SUPPORT. Data memory: read after write, and that every memory operation keeps the canonical form. -/

namespace Sys2Proof.Machine

theorem Memory.read_cons (a k : Nat) (v : Byte) (m : Memory) (hm : Memory.read m a = 0) :
    Memory.read (Memory.cons a v m) k = if k = a then v else Memory.read m k := by
  unfold Memory.cons
  by_cases hv : v = Config.unwrittenByte
  · simp only [hv, if_true]
    by_cases hk : k = a
    · simp [hk, hm, Config.unwrittenByte]
    · simp [hk]
  · simp only [hv, if_false, Memory.read]

/-- Below every listed address nothing is listed. -/
theorem Memory.read_below {m : Memory} {a : Nat} (h : ∀ c ∈ m, a < c.1) : Memory.read m a = 0 := by
  induction m with
  | nil => rfl
  | cons c m ih =>
    have hc := h c (by simp)
    have ne : a ≠ c.1 := by omega
    simp only [Memory.read, ne, if_false]
    exact ih fun d hd => h d (by simp [hd])

theorem Memory.wf_nil : Memory.wf [] := by simp [Memory.wf]

theorem Memory.wf_cons {k : Nat} {u : Byte} {m : Memory} :
    Memory.wf ((k, u) :: m) ↔
      k < Config.memCapacity ∧ u ≠ Config.unwrittenByte ∧ (∀ c ∈ m, k < c.1) ∧ Memory.wf m := by
  simp only [Memory.wf, List.map_cons, List.pairwise_cons, List.mem_map, List.mem_cons]
  constructor
  · rintro ⟨⟨h1, h2⟩, h3⟩
    have h4 := h3 (k, u) (.inl rfl)
    exact ⟨h4.1, h4.2, fun c hc => h1 _ ⟨c, hc, rfl⟩, h2, fun c hc => h3 c (.inr hc)⟩
  · rintro ⟨h1, h2, h3, h4, h5⟩
    refine ⟨⟨?_, h4⟩, ?_⟩
    · rintro _ ⟨c, hc, rfl⟩
      exact h3 c hc
    · rintro c (rfl | hc)
      · exact ⟨h1, h2⟩
      · exact h5 c hc

theorem Memory.read_write {m : Memory} (h : Memory.wf m) (a k : Nat) (v : Byte) :
    Memory.read (Memory.write m a v) k = if k = a then v else Memory.read m k := by
  induction m with
  | nil => exact Memory.read_cons a k v [] rfl
  | cons c m ih =>
    obtain ⟨j, u⟩ := c
    obtain ⟨-, -, hlt, hm⟩ := Memory.wf_cons.1 h
    simp only [Memory.write]
    by_cases h1 : a < j
    · rw [if_pos h1]
      apply Memory.read_cons
      apply Memory.read_below
      rintro c hc
      rcases List.mem_cons.1 hc with rfl | hc
      · exact h1
      · have := hlt c hc; omega
    · rw [if_neg h1]
      by_cases h2 : a = j
      · subst h2
        rw [if_pos rfl, Memory.read_cons a k v m (Memory.read_below hlt)]
        by_cases hk : k = a <;> simp [hk, Memory.read]
      · rw [if_neg h2]
        simp only [Memory.read, ih hm]
        by_cases hk : k = j
        · have hka : ¬ j = a := fun e => h2 e.symm
          simp [hk, hka]
        · simp [hk]

theorem Memory.mem_cons_imp {a : Nat} {v : Byte} {m : Memory} {c : Host.Cell} (h : c ∈ Memory.cons a v m) :
    c.1 = a ∨ c ∈ m := by
  unfold Memory.cons at h
  split at h
  · exact .inr h
  · rcases List.mem_cons.1 h with rfl | h
    · exact .inl rfl
    · exact .inr h

theorem Memory.mem_write_imp {m : Memory} {a : Nat} {v : Byte} {c : Host.Cell} (h : c ∈ Memory.write m a v) :
    c.1 = a ∨ c ∈ m := by
  induction m with
  | nil => exact Memory.mem_cons_imp h
  | cons d m ih =>
    simp only [Memory.write] at h
    split at h
    · exact Memory.mem_cons_imp h
    · split at h
      · exact (Memory.mem_cons_imp h).imp_right fun h => List.mem_cons_of_mem _ h
      · rcases List.mem_cons.1 h with rfl | h
        · exact .inr (by simp)
        · exact (ih h).imp_right fun h => List.mem_cons_of_mem _ h

theorem Memory.wf_cons_of {a : Nat} {v : Byte} {m : Memory} (ha : a < Config.memCapacity)
    (hlt : ∀ c ∈ m, a < c.1) (hm : Memory.wf m) : Memory.wf (Memory.cons a v m) := by
  unfold Memory.cons
  split
  · exact hm
  · exact Memory.wf_cons.2 ⟨ha, ‹_›, hlt, hm⟩

/-- A write keeps the canonical form. -/
theorem Memory.wf_write {m : Memory} (h : Memory.wf m) {a : Nat} (ha : a < Config.memCapacity) (v : Byte) :
    Memory.wf (Memory.write m a v) := by
  induction m with
  | nil => exact Memory.wf_cons_of ha (by simp) Memory.wf_nil
  | cons d m ih =>
    obtain ⟨k, u⟩ := d
    obtain ⟨hk, hu, hlt, hm⟩ := Memory.wf_cons.1 h
    simp only [Memory.write]
    by_cases h1 : a < k
    · rw [if_pos h1]
      refine Memory.wf_cons_of ha ?_ h
      intro c hc
      rcases List.mem_cons.1 hc with rfl | hc
      · exact h1
      · have := hlt c hc; omega
    · rw [if_neg h1]
      by_cases h2 : a = k
      · subst h2
        rw [if_pos rfl]
        exact Memory.wf_cons_of ha hlt hm
      · rw [if_neg h2]
        refine Memory.wf_cons.2 ⟨hk, hu, ?_, ih hm⟩
        intro c hc
        rcases Memory.mem_write_imp hc with h3 | h3
        · omega
        · exact hlt c h3

/-- In canonical form, memories that read the same at every address are the same list. -/
theorem Memory.eq_of_read_eq {m n : Memory} (hm : Memory.wf m) (hn : Memory.wf n)
    (h : ∀ a, Memory.read m a = Memory.read n a) : m = n := by
  induction m generalizing n with
  | nil =>
    cases n with
    | nil => rfl
    | cons d n =>
      obtain ⟨k, u⟩ := d
      obtain ⟨-, hu, -, -⟩ := Memory.wf_cons.1 hn
      have := h k
      simp only [Memory.read, if_true] at this
      exact absurd this.symm hu
  | cons c m ih =>
    obtain ⟨j, v⟩ := c
    obtain ⟨-, hv, hltm, hm'⟩ := Memory.wf_cons.1 hm
    cases n with
    | nil =>
      have := h j
      simp only [Memory.read, if_true] at this
      exact absurd this hv
    | cons d n =>
      obtain ⟨k, u⟩ := d
      obtain ⟨-, hu, hltn, hn'⟩ := Memory.wf_cons.1 hn
      have hjk : j = k := by
        rcases Nat.lt_trichotomy j k with hlt | heq | hlt
        · have hz : Memory.read ((k, u) :: n) j = 0 := Memory.read_below (by
            intro c hc
            rcases List.mem_cons.1 hc with rfl | hc
            · exact hlt
            · have := hltn c hc; omega)
          have := h j
          rw [hz] at this
          simp only [Memory.read, if_true] at this
          exact absurd this hv
        · exact heq
        · have hz : Memory.read ((j, v) :: m) k = 0 := Memory.read_below (by
            intro c hc
            rcases List.mem_cons.1 hc with rfl | hc
            · exact hlt
            · have := hltm c hc; omega)
          have := h k
          rw [hz] at this
          simp only [Memory.read, if_true] at this
          exact absurd this.symm hu
      subst hjk
      have hvu : v = u := by have := h j; simpa [Memory.read] using this
      subst hvu
      congr 1
      apply ih hm' hn'
      intro a
      by_cases ha : a = j
      · subst ha
        rw [Memory.read_below hltm, Memory.read_below hltn]
      · have := h a
        simpa [Memory.read, ha] using this

/-! ## The state's memory operations -/

theorem State.memByte_of_mem {s t : State} (h : t.mem = s.mem) (a : Word) : t.memByte a = s.memByte a := by
  simp [State.memByte, h]

theorem State.memRead_of_mem {s t : State} (h : t.mem = s.mem) (w : Width) (a : Word) :
    t.memRead w a = s.memRead w a := by
  cases w <;> simp [State.memRead, State.memByte, h]

theorem State.memByte_setMemByte {s : State} (h : s.mem.wf) (a b : Word) (v : Byte) :
    (s.setMemByte a v).memByte b = if b = a then v else s.memByte b := by
  simp only [State.memByte, State.setMemByte_mem, Memory.read_write h, BitVec.toNat_inj]

theorem State.wf_setMemByte {s : State} (h : s.mem.wf) (a : Word) (v : Byte) : (s.setMemByte a v).mem.wf :=
  Memory.wf_write h (by have := a.isLt; simpa [Config.memCapacity] using this) v

/-- Every memory write of an instruction keeps the canonical form. -/
theorem State.wf_memWrite {s : State} (h : s.mem.wf) (w : Width) (a : Word) (v : BitVec w.bits) :
    (s.memWrite w a v).mem.wf := by
  cases w
  · exact State.wf_setMemByte h a v
  · exact State.wf_setMemByte (State.wf_setMemByte h a _) _ _

/-- Every byte after a write: only the bytes of the access change (R53). -/
theorem State.memByte_memWrite_other {s : State} (h : s.mem.wf) (w : Width) (a b : Word) (v : BitVec w.bits)
    (hb : b ∉ accessBytes w a) : (s.memWrite w a v).memByte b = s.memByte b := by
  cases w
  · simp [accessBytes] at hb
    simp [State.memWrite, State.memByte_setMemByte h, hb]
  · simp [accessBytes] at hb
    simp [State.memWrite, State.memByte_setMemByte (State.wf_setMemByte h _ _), State.memByte_setMemByte h, hb]

@[simp] theorem State.memRead_memWrite_same {s : State} (h : s.mem.wf) (w : Width) (a : Word) (v : BitVec w.bits) :
    (s.memWrite w a v).memRead w a = v := by
  cases w
  · simp [State.memWrite, State.memRead, State.memByte_setMemByte h]
  · simp [State.memWrite, State.memRead, State.memByte_setMemByte (State.wf_setMemByte h _ _),
      State.memByte_setMemByte h]

end Sys2Proof.Machine
end

