-- ==== Sys2Proof/Laws/Registers.lean ====
section
/-! SUPPORT. Reading a register after writing one (spec/10_state.md R20 to R22). -/

namespace Sys2Proof.Machine

theorem Regs.get_set (r : Regs) (c d : RegCode) (v : Word) :
    (r.set c v).get d = if d = c then v else r.get d := by
  rcases regCode_cases c with h | h | h | h | h | h | h | h <;> subst h <;>
    rcases regCode_cases d with h | h | h | h | h | h | h | h <;> subst h <;> rfl

/-- Two register files with the same eight registers are equal. -/
theorem Regs.ext_get {r q : Regs} (h : ∀ c, r.get c = q.get c) : r = q := by
  rcases r with ⟨⟩; rcases q with ⟨⟩
  have h0 := h 0; have h1 := h 1; have h2 := h 2; have h3 := h 3
  have h4 := h 4; have h5 := h 5; have h6 := h 6; have h7 := h 7
  simp_all [Regs.get]

theorem State.x_setX (s : State) (c d : RegCode) (v : Word) : (s.setX c v).x d = if d = c then v else s.x d :=
  Regs.get_set _ _ _ _

@[simp] theorem State.x_setX_same (s : State) (c : RegCode) (v : Word) : (s.setX c v).x c = v := by
  simp [State.x_setX]

/-- The registers depend on no other field. -/
theorem State.x_of_regs {s t : State} (h : t.regs = s.regs) (c : RegCode) : t.x c = s.x c := by
  simp [State.x, h]

theorem State.x8_of_regs {s t : State} (h : t.regs = s.regs) (c : RegCode) : t.x8 c = s.x8 c := by
  simp [State.x8, State.x, h]

theorem State.readReg_of_regs {s t : State} (h : t.regs = s.regs) (w : Width) (c : RegCode) :
    t.readReg w c = s.readReg w c := by
  cases w
  · exact State.x8_of_regs h c
  · exact State.x_of_regs h c

/-- A register write changes only the register it is stored in. -/
theorem State.x_writeReg_other (s : State) (w : Width) (c d : RegCode) (v : BitVec w.bits)
    (h : d ≠ containing w c) : (s.writeReg w c v).x d = s.x d := by
  cases w
  · change d ≠ (if c < 4 then c else c - 4) at h
    simp only [State.writeReg, State.setX8]
    by_cases hc : c < 4
    · rw [if_pos hc] at h ⊢
      rw [State.x_setX, if_neg h]
    · rw [if_neg hc] at h ⊢
      rw [State.x_setX, if_neg h]
  · simp_all [State.writeReg, State.x_setX, containing]

@[simp] theorem State.readReg_writeReg_same (s : State) (w : Width) (c : RegCode) (v : BitVec w.bits) :
    (s.writeReg w c v).readReg w c = v := by
  cases w
  · simp only [State.writeReg, State.readReg, State.setX8, State.x8]
    split <;> simp
  · simp [State.writeReg, State.readReg]

/-- The eight byte registers are independent of one another (R22). -/
theorem State.x8_setX8 (s : State) (c d : RegCode) (v : Byte) :
    (s.setX8 c v).x8 d = if d = c then v else s.x8 d := by
  rcases regCode_cases c with h | h | h | h | h | h | h | h <;> subst h <;>
    rcases regCode_cases d with h | h | h | h | h | h | h | h <;> subst h <;>
      simp [State.setX8, State.x8, State.x_setX]

end Sys2Proof.Machine
end

