-- ==== Sys2Proof/Laws/Exec.lean ====
section
/-! SUPPORT. What each shared operation can do, said once: `WriteOp`, MOV, ADD/SUB, and the step cycle. -/

namespace Sys2Proof.Machine

/-! ## Operands -/

/-- `WriteOp` answers a next state exactly where the operand is no immediate (R95). -/
theorem State.writeOp_next {s t : State} {w : Width} {o : Operand} {v : BitVec w.bits}
    (h : s.writeOp w o v = .next t) :
    (∃ u c, o = .reg u c ∧ t = s.writeReg w c v) ∨ (∃ a, s.ea o = some a ∧ t = s.memWrite w a v) := by
  cases o with
  | reg u c => exact .inl ⟨u, c, rfl, by simpa [State.writeOp] using h.symm⟩
  | memDirect a => exact .inr ⟨a, rfl, by simpa [State.writeOp] using h.symm⟩
  | memIndexed b d => exact .inr ⟨_, rfl, by simpa [State.writeOp] using h.symm⟩
  | imm v => simp [State.writeOp] at h

/-- A memory operand is read at its effective address (R94). -/
theorem State.readOp_of_ea {s : State} {o : Operand} {a : Word} (h : s.ea o = some a) (w : Width) :
    s.readOp w o = s.memRead w a := by
  cases o <;> simp_all [State.ea, State.readOp]

/-- An r/m operand is a register or a memory operand. -/
theorem rmOperand_cases (w : Width) (rm : RmOperand) :
    (∃ c, rm = .reg c ∧ rmOperand w rm = .reg w c) ∨ (∃ a, rmOperand w rm = .memDirect a) ∨
      (∃ b d, rmOperand w rm = .memIndexed b d) := by
  cases rm <;> simp [rmOperand]

/-- `WriteOp` on an r/m operand always answers a next state (R203). -/
theorem State.writeOp_rmOperand (s : State) (w : Width) (rm : RmOperand) (v : BitVec w.bits) :
    ∃ t, s.writeOp w (rmOperand w rm) v = .next t := by
  cases rm <;> exact ⟨_, rfl⟩

/-- So does `WriteOp` on the destination of a register/memory form. -/
theorem State.writeOp_rmRegDst (s : State) (d : Dir) (w : Width) (reg : RegCode) (rm : RmOperand) (v : BitVec w.bits) :
    ∃ t, s.writeOp w (rmRegDst d w reg rm) v = .next t := by
  cases d
  · exact s.writeOp_rmOperand w rm v
  · exact ⟨_, rfl⟩

/-! ## MOV, ADD and SUB -/

theorem movOp_next {w : Width} {dst src : Operand} {fin : Word} {s t : State} (h : movOp w dst src fin s = .next t) :
    ∃ u, s.writeOp w dst (s.readOp w src) = .next u ∧ t = u.setIp fin := by
  unfold movOp at h
  cases hw : s.writeOp w dst (s.readOp w src) with
  | next u => exact ⟨u, rfl, by simpa [hw] using h.symm⟩
  | fault c => simp [hw] at h
  | refused r => simp [hw] at h

theorem aluWrite_next {w : Width} {dst : Operand} {r : AluResult w.bits} {fin : Word} {s t : State}
    (h : aluWrite w dst r fin s = .next t) :
    ∃ u, s.writeOp w dst r.value = .next u ∧ t = (u.setFlags r.flags).setIp fin := by
  unfold aluWrite at h
  cases hw : s.writeOp w dst r.value with
  | next u => exact ⟨u, rfl, by simpa [hw] using h.symm⟩
  | fault c => simp [hw] at h
  | refused r => simp [hw] at h

/-- A write to an operand changes no control field, no flag and no `ip`. -/
theorem State.writeOp_keeps {s t : State} {w : Width} {o : Operand} {v : BitVec w.bits}
    (h : s.writeOp w o v = .next t) : SameControl s t ∧ t.flags = s.flags ∧ t.ip = s.ip := by
  rcases State.writeOp_next h with ⟨u, c, -, rfl⟩ | ⟨a, -, rfl⟩ <;> simp [SameControl]

/-- A write to an operand keeps the canonical form of memory. -/
theorem State.writeOp_wf {s t : State} {w : Width} {o : Operand} {v : BitVec w.bits}
    (h : s.writeOp w o v = .next t) (hm : s.mem.wf) : t.mem.wf := by
  rcases State.writeOp_next h with ⟨u, c, -, rfl⟩ | ⟨a, -, rfl⟩
  · simpa using hm
  · exact State.wf_memWrite hm w a v

/-! ## Fault records -/

/-- The decoder never fails with InvalidOperandCombination (R203). -/
@[simp] theorem causeOf_ne_invalidOperandCombination (e : DecodeError) : causeOf e ≠ .invalidOperandCombination := by
  cases e <;> simp [causeOf]

theorem FaultRecord.Sound.cause_ne {r : FaultRecord} {s : State} (h : r.Sound s) :
    r.cause ≠ .invalidOperandCombination := by
  obtain ⟨e, -, rfl⟩ := h.fromDecode
  exact causeOf_ne_invalidOperandCombination e

/-- The record's offset is the faulting instruction's, where `ip` still points (R204, R206). -/
theorem FaultRecord.Sound.offset_eq {r : FaultRecord} {s : State} (h : r.Sound s) : r.offset = s.ip := by
  obtain ⟨e, -, rfl⟩ := h.fromDecode
  rfl

/-! ## The step cycle -/

/-- Everything one step can do (R96 to R99, R206). -/
theorem step_cases {s t : State} (h : step s = .next t) :
    (s.Stopped ∧ t = s) ∨
    (∃ e, s.status = .running ∧ decode s.fetchBytes = .error e ∧ t = s.raiseDecode e) ∨
    (∃ i r, s.status = .running ∧ decode s.fetchBytes = .ok (i, r) ∧ s.mode = .decodeOnly ∧
      t = (s.setIp (s.endOf i)).retire ⟨s.recordOf i, none⟩) ∨
    (∃ i r u, s.status = .running ∧ decode s.fetchBytes = .ok (i, r) ∧ s.mode = .execute ∧ exec i s = .next u ∧
      t = u.retire ⟨s.recordOf i, some (effectsOf i s u)⟩) ∨
    (∃ i r c, s.status = .running ∧ decode s.fetchBytes = .ok (i, r) ∧ s.mode = .execute ∧ exec i s = .fault c ∧
      t = s.raise c (s.consumed i)) := by
  unfold step cycle at h
  cases hs : s.status with
  | ended => rw [hs] at h; exact .inl ⟨.inl hs, by simpa using h.symm⟩
  | faulted => rw [hs] at h; exact .inl ⟨.inr hs, by simpa using h.symm⟩
  | running =>
    rw [hs] at h
    cases hd : decode s.fetchBytes with
    | error e => simp only [hd] at h; exact .inr (.inl ⟨e, rfl, rfl, by simpa using h.symm⟩)
    | ok p =>
      obtain ⟨i, r⟩ := p
      simp only [hd, runDecoded] at h
      cases hm : s.mode with
      | decodeOnly =>
        simp only [hm] at h
        exact .inr (.inr (.inl ⟨i, r, rfl, rfl, rfl, by simpa using h.symm⟩))
      | execute =>
        simp only [hm] at h
        cases hx : exec i s with
        | next u =>
          simp only [hx] at h
          exact .inr (.inr (.inr (.inl ⟨i, r, u, rfl, rfl, rfl, hx, by simpa using h.symm⟩)))
        | fault c =>
          simp only [hx] at h
          exact .inr (.inr (.inr (.inr ⟨i, r, c, rfl, rfl, rfl, hx, by simpa using h.symm⟩)))
        | refused q => simp only [hx] at h; cases h

end Sys2Proof.Machine
end

