-- ==== Sys2Proof/Laws/PerInstr.lean ====
section
/-! SUPPORT. Statements about all instructions, one lemma per constructor. The family EncodeLength: the encoder writes as
many bytes as R83 gives the instruction. -/

namespace Sys2Proof.Laws.EncodeLength

def Statement (i : Instr) : Prop := i.wf = true → (encode i).length = i.length

theorem movRmReg (d : Dir) (w : Width) (reg : RegCode) (rm : RmOperand) : Statement (.movRmReg d w reg rm) := by
  intro _; simp [encode, Instr.length, RmOperand.encode_length]; omega

theorem movRmImm (w : Width) (rm : RmOperand) (imm : Imm) : Statement (.movRmImm w rm imm) := by
  intro h
  simp only [Instr.wf, Bool.and_eq_true] at h
  simp [encode, Instr.length, RmOperand.encode_length, Imm.encode_length_of_fits h.2]; omega

theorem movRegImm (w : Width) (reg : RegCode) (imm : Imm) : Statement (.movRegImm w reg imm) := by
  intro h
  simp only [Instr.wf] at h
  simp [encode, Instr.length, Imm.encode_length_of_fits h]; omega

theorem movAccMem (w : Width) (addr : Word) : Statement (.movAccMem w addr) := fun _ => rfl

theorem movMemAcc (w : Width) (addr : Word) : Statement (.movMemAcc w addr) := fun _ => rfl

theorem addRmReg (d : Dir) (w : Width) (reg : RegCode) (rm : RmOperand) : Statement (.addRmReg d w reg rm) := by
  intro _; simp [encode, Instr.length, RmOperand.encode_length]; omega

theorem addRmImm (s : Bool) (w : Width) (rm : RmOperand) (imm : Imm) : Statement (.addRmImm s w rm imm) := by
  intro h
  simp only [Instr.wf, Bool.and_eq_true] at h
  simp [encode, Instr.length, RmOperand.encode_length, Imm.encode_length_of_fitsGroup h.2]; omega

theorem addAccImm (w : Width) (imm : Imm) : Statement (.addAccImm w imm) := by
  intro h
  simp only [Instr.wf] at h
  simp [encode, Instr.length, Imm.encode_length_of_fits h]; omega

theorem subRmReg (d : Dir) (w : Width) (reg : RegCode) (rm : RmOperand) : Statement (.subRmReg d w reg rm) := by
  intro _; simp [encode, Instr.length, RmOperand.encode_length]; omega

theorem subRmImm (s : Bool) (w : Width) (rm : RmOperand) (imm : Imm) : Statement (.subRmImm s w rm imm) := by
  intro h
  simp only [Instr.wf, Bool.and_eq_true] at h
  simp [encode, Instr.length, RmOperand.encode_length, Imm.encode_length_of_fitsGroup h.2]; omega

theorem subAccImm (w : Width) (imm : Imm) : Statement (.subAccImm w imm) := by
  intro h
  simp only [Instr.wf] at h
  simp [encode, Instr.length, Imm.encode_length_of_fits h]; omega

theorem cmpRmReg (d : Dir) (w : Width) (reg : RegCode) (rm : RmOperand) : Statement (.cmpRmReg d w reg rm) := by
  intro _; simp [encode, Instr.length, RmOperand.encode_length]; omega

theorem cmpRmImm (s : Bool) (w : Width) (rm : RmOperand) (imm : Imm) : Statement (.cmpRmImm s w rm imm) := by
  intro h
  simp only [Instr.wf, Bool.and_eq_true] at h
  simp [encode, Instr.length, RmOperand.encode_length, Imm.encode_length_of_fitsGroup h.2]; omega

theorem cmpAccImm (w : Width) (imm : Imm) : Statement (.cmpAccImm w imm) := by
  intro h
  simp only [Instr.wf] at h
  simp [encode, Instr.length, Imm.encode_length_of_fits h]; omega

theorem jo (rel : Byte) : Statement (.jo rel) := fun _ => rfl

theorem jno (rel : Byte) : Statement (.jno rel) := fun _ => rfl

theorem jb (rel : Byte) : Statement (.jb rel) := fun _ => rfl

theorem jnb (rel : Byte) : Statement (.jnb rel) := fun _ => rfl

theorem jz (rel : Byte) : Statement (.jz rel) := fun _ => rfl

theorem jnz (rel : Byte) : Statement (.jnz rel) := fun _ => rfl

theorem jbe (rel : Byte) : Statement (.jbe rel) := fun _ => rfl

theorem jnbe (rel : Byte) : Statement (.jnbe rel) := fun _ => rfl

theorem js (rel : Byte) : Statement (.js rel) := fun _ => rfl

theorem jns (rel : Byte) : Statement (.jns rel) := fun _ => rfl

theorem jp (rel : Byte) : Statement (.jp rel) := fun _ => rfl

theorem jnp (rel : Byte) : Statement (.jnp rel) := fun _ => rfl

theorem jl (rel : Byte) : Statement (.jl rel) := fun _ => rfl

theorem jnl (rel : Byte) : Statement (.jnl rel) := fun _ => rfl

theorem jle (rel : Byte) : Statement (.jle rel) := fun _ => rfl

theorem jnle (rel : Byte) : Statement (.jnle rel) := fun _ => rfl

theorem loopnz (rel : Byte) : Statement (.loopnz rel) := fun _ => rfl

theorem loopz (rel : Byte) : Statement (.loopz rel) := fun _ => rfl

theorem loop (rel : Byte) : Statement (.loop rel) := fun _ => rfl

theorem jcxz (rel : Byte) : Statement (.jcxz rel) := fun _ => rfl

end Sys2Proof.Laws.EncodeLength
end

