-- ==== Sys2Proof/Machine/Listing.lean ====
section
/-! DEFINITION. The assembler syntax of an instruction (spec/30_encoding.md R100 to R105). It is not part of the block's
behaviour: no step reads it. -/

namespace Sys2Proof.Machine

/-- The first line of a listing (R100). -/
def listingHeader : String := "bits 16"

/-- The lowercase name of `reg(w, c)` (R20, R21, R101). -/
def registerName (w : Width) (c : RegCode) : String :=
  match w, c.toNat with
  | .byte, 0 => "al"
  | .byte, 1 => "cl"
  | .byte, 2 => "dl"
  | .byte, 3 => "bl"
  | .byte, 4 => "ah"
  | .byte, 5 => "ch"
  | .byte, 6 => "dh"
  | .byte, _ => "bh"
  | .word, 0 => "ax"
  | .word, 1 => "cx"
  | .word, 2 => "dx"
  | .word, 3 => "bx"
  | .word, 4 => "sp"
  | .word, 5 => "bp"
  | .word, 6 => "si"
  | .word, _ => "di"

/-- A base expression, with " + " between registers (R102). -/
def baseText : BaseExpr → String
  | .bxSi => "bx + si"
  | .bxDi => "bx + di"
  | .bpSi => "bp + si"
  | .bpDi => "bp + di"
  | .si => "si"
  | .di => "di"
  | .bp => "bp"
  | .bx => "bx"

/-- A signed number in decimal, with the sign written before it. -/
def signedText (plus minus : String) (n : Int) : String :=
  if n < 0 then minus ++ toString n.natAbs else plus ++ toString n.natAbs

/-- An immediate in decimal, signed at its width (R103). -/
def immText : Imm → String
  | .imm8 v => signedText "" "-" v.toInt
  | .imm16 v => signedText "" "-" v.toInt

/-- An operand (R101 to R103). -/
def operandText : Operand → String
  | .reg w c => registerName w c
  | .memDirect a => "[" ++ toString a.toNat ++ "]"
  | .memIndexed b d =>
    if d = 0 then "[" ++ baseText b ++ "]" else "[" ++ baseText b ++ signedText " + " " - " d.toInt ++ "]"
  | .imm v => immText v

/-- The size keyword, written when the destination is memory and the source an immediate (R103). -/
def sizeKeyword : Operand → Operand → String
  | .memDirect _, .imm (.imm8 _) => "byte "
  | .memDirect _, .imm (.imm16 _) => "word "
  | .memIndexed _ _, .imm (.imm8 _) => "byte "
  | .memIndexed _ _, .imm (.imm16 _) => "word "
  | _, _ => ""

/-- The mnemonic of a condition code (spec/42_jcc_loop.md R163 to R178). -/
def jccName (cc : BitVec 4) : String :=
  match cc.toNat with
  | 0x0 => "jo"
  | 0x1 => "jno"
  | 0x2 => "jb"
  | 0x3 => "jnb"
  | 0x4 => "jz"
  | 0x5 => "jnz"
  | 0x6 => "jbe"
  | 0x7 => "jnbe"
  | 0x8 => "js"
  | 0x9 => "jns"
  | 0xA => "jp"
  | 0xB => "jnp"
  | 0xC => "jl"
  | 0xD => "jnl"
  | 0xE => "jle"
  | _ => "jnle"

/-- The lowercase mnemonic (R100). -/
def mnemonicText : Op → String
  | .mov => "mov"
  | .add => "add"
  | .sub => "sub"
  | .cmp => "cmp"
  | .jcc cc => jccName cc
  | .loopk k =>
    match k.toNat with
    | 0 => "loopnz"
    | 1 => "loopz"
    | 2 => "loop"
    | _ => "jcxz"

/-- The target `$+k` or `$-k` of a J8 form, k = 2 + signed_8(rel8) (R104). -/
def targetText (rel : Byte) : String := "$" ++ signedText "+" "-" (2 + rel.toInt)

/-- The line of one instruction (R100). -/
def instrText (i : Instr) : String :=
  match i.operands, i.rel8 with
  | some (d, s), _ => mnemonicText i.op ++ " " ++ operandText d ++ ", " ++ sizeKeyword d s ++ operandText s
  | none, some rel => mnemonicText i.op ++ " " ++ targetText rel
  | none, none => mnemonicText i.op

/-- The aliases that are input syntax only, each with its primary name (R105). -/
def mnemonicAliases : List (String × String) :=
  [("je", "jz"), ("jne", "jnz"), ("jc", "jb"), ("jnae", "jb"), ("jnc", "jnb"), ("jae", "jnb")] ++
    [("jna", "jbe"), ("ja", "jnbe"), ("jpe", "jp"), ("jpo", "jnp"), ("jnge", "jl"), ("jge", "jnl")] ++
    [("jng", "jle"), ("jg", "jnle"), ("loope", "loopz"), ("loopne", "loopnz")]

/-- The letters of the set flags in the order C P A Z S O (spec/60_exceptions.md R214, 92_eei_decisions.md D22). -/
def flagLetters (s : State) : List Char :=
  [(s.cf, 'C'), (s.pf, 'P'), (s.af, 'A'), (s.zf, 'Z'), (s.sf, 'S'), (s.of, 'O')].filterMap fun p =>
    if p.1 then some p.2 else none

end Sys2Proof.Machine
end

