-- ==== Sys2Proof/Tests/Slice0.lean ====
section
/-! SUPPORT. The model's own tests. Expected values come from spec/95_test_vectors.md (the vector's name is in the test's
comment) or are worked out by hand from the rules named there. The witnesses show that the hypotheses of each statement
can be met together. -/

namespace Sys2Proof.Tests

open Sys2Proof.Machine Sys2Proof.Claims

/-! ## Helpers -/

/-- A run at its start: this stream, EXECUTE mode, everything else at its reset value. -/
def start (bytes : List Byte) : State := State.launched bytes .execute

/-- One step, and a check of the state after it. -/
def after (s : State) (check : State → Bool) : Bool :=
  match step s with
  | .next t => check t
  | .fault _ => false
  | .refused _ => false

/-- The instruction decoded from exactly these bytes is this one. -/
def readsAs (bytes : List Byte) (i : Instr) : Bool := decode bytes == .ok (i, [])

/-- Two steps, and a check of the state after them. -/
def afterTwo (s : State) (check : State → Bool) : Bool := after s fun t => after t check

/-! ## WellFormed refuses each ill-formed term -/

theorem test_wf_bp_without_displacement : (Instr.movRmReg .toRm .word 0 (.ind .bp)).wf = false := by decide

theorem test_wf_bp_with_displacement : (Instr.movRmReg .toRm .word 0 (.ind8 .bp 0)).wf = true := by decide

theorem test_wf_bp_in_immediate_form : (Instr.movRmImm .byte (.ind .bp) (.imm8 1)).wf = false := by decide

theorem test_wf_imm16_at_byte : (Instr.movRegImm .byte 0 (.imm16 5)).wf = false := by decide

theorem test_wf_imm8_at_word : (Instr.addAccImm .word (.imm8 5)).wf = false := by decide

theorem test_wf_group_short_immediate : (Instr.addRmImm false .word (.reg 0) (.imm8 5)).wf = false := by decide

theorem test_wf_group_long_immediate_sign_extended :
    (Instr.subRmImm true .word (.reg 0) (.imm16 5)).wf = false := by decide

theorem test_wf_group_long_immediate_byte : (Instr.cmpRmImm false .byte (.reg 0) (.imm16 5)).wf = false := by decide

theorem test_wf_group_sign_extended : (Instr.cmpRmImm true .word (.reg 0) (.imm8 5)).wf = true := by decide

/-! ## Decoding: one word or more for each constructor, written out from the encodings of R83 and R84 -/

/-- DV1. -/
theorem test_decode_mov_rm_reg : readsAs [0b10001001, 0b11011000] (.movRmReg .toRm .word 3 (.reg 0)) = true := by decide

/-- DV2. -/
theorem test_decode_mov_reg_rm : readsAs [0b10001011, 0b11000011] (.movRmReg .toReg .word 0 (.reg 3)) = true := by decide

/-- DV4. -/
theorem test_decode_mov_reg_rm_disp16 :
    readsAs [0b10001011, 0b10000000, 0x00, 0x01] (.movRmReg .toReg .word 0 (.ind16 .bxSi 0x0100)) = true := by decide

/-- DV5. -/
theorem test_decode_mov_reg_rm_direct :
    readsAs [0b10001010, 0b00000110, 0x34, 0x12] (.movRmReg .toReg .byte 0 (.direct 0x1234)) = true := by decide

/-- DV8. -/
theorem test_decode_mov_rm_imm8 :
    readsAs [0b11000110, 0b01000110, 0x02, 0x07] (.movRmImm .byte (.ind8 .bp 2) (.imm8 7)) = true := by decide

/-- DV9. -/
theorem test_decode_mov_rm_imm16 :
    readsAs [0b11000111, 0b10000110, 0x00, 0x01, 0x39, 0x30]
      (.movRmImm .word (.ind16 .bp 0x0100) (.imm16 0x3039)) = true := by decide

/-- DV19. -/
theorem test_decode_mov_reg_imm8 : readsAs [0b10110001, 0x0C] (.movRegImm .byte 1 (.imm8 12)) = true := by decide

/-- DV20. -/
theorem test_decode_mov_reg_imm16 :
    readsAs [0b10111100, 0x00, 0x01] (.movRegImm .word 4 (.imm16 0x0100)) = true := by decide

/-- DV21. -/
theorem test_decode_mov_acc_mem : readsAs [0b10100000, 0xFF, 0xFF] (.movAccMem .byte 0xFFFF) = true := by decide

/-- DV22. -/
theorem test_decode_mov_mem_acc : readsAs [0b10100011, 0x00, 0x10] (.movMemAcc .word 0x1000) = true := by decide

/-- AD1. -/
theorem test_decode_add_rm_reg : readsAs [0b00000001, 0b11011000] (.addRmReg .toRm .word 3 (.reg 0)) = true := by decide

/-- DV11. -/
theorem test_decode_add_rm_imm16 :
    readsAs [0b10000001, 0b00000110, 0x34, 0x12, 0x78, 0x56]
      (.addRmImm false .word (.direct 0x1234) (.imm16 0x5678)) = true := by decide

/-- DV12. -/
theorem test_decode_add_rm_imm_sign_extended :
    readsAs [0b10000011, 0b00000110, 0x34, 0x12, 0xFF]
      (.addRmImm true .word (.direct 0x1234) (.imm8 0xFF)) = true := by decide

/-- DV14. -/
theorem test_decode_add_rm_imm_82 :
    readsAs [0b10000010, 0b11000001, 0x05] (.addRmImm true .byte (.reg 1) (.imm8 5)) = true := by decide

/-- DV25. -/
theorem test_decode_add_acc_imm : readsAs [0b00000101, 0xFF, 0x7F] (.addAccImm .word (.imm16 0x7FFF)) = true := by decide

/-- DV7. -/
theorem test_decode_sub_reg_rm :
    readsAs [0b00101011, 0b01000110, 0x00] (.subRmReg .toReg .word 0 (.ind8 .bp 0)) = true := by decide

/-- DV15. -/
theorem test_decode_sub_rm_imm :
    readsAs [0b10000011, 0b11101001, 0x01] (.subRmImm true .word (.reg 1) (.imm8 1)) = true := by decide

/-- DV26. -/
theorem test_decode_sub_acc_imm : readsAs [0b00101101, 0x00, 0x80] (.subAccImm .word (.imm16 0x8000)) = true := by decide

/-- DV23. -/
theorem test_decode_cmp_rm_reg :
    readsAs [0b00111000, 0b00000000] (.cmpRmReg .toRm .byte 0 (.ind .bxSi)) = true := by decide

/-- DV16. -/
theorem test_decode_cmp_rm_imm :
    readsAs [0b10000000, 0b00111111, 0x00] (.cmpRmImm false .byte (.ind .bx) (.imm8 0)) = true := by decide

/-- DV27. -/
theorem test_decode_cmp_acc_imm : readsAs [0b00111100, 0x80] (.cmpAccImm .byte (.imm8 0x80)) = true := by decide

/-- The sixteen conditions, cc = b0[3:0] (R84). -/
theorem test_decode_jcc :
    (readsAs [0b01110000, 0xFB] (.jo 0xFB) &&
      readsAs [0b01110001, 0xFB] (.jno 0xFB) &&
      readsAs [0b01110010, 0xFB] (.jb 0xFB) &&
      readsAs [0b01110011, 0xFB] (.jnb 0xFB) &&
      readsAs [0b01110100, 0xFB] (.jz 0xFB) &&
      readsAs [0b01110101, 0xFB] (.jnz 0xFB) &&
      readsAs [0b01110110, 0xFB] (.jbe 0xFB) &&
      readsAs [0b01110111, 0xFB] (.jnbe 0xFB) &&
      readsAs [0b01111000, 0xFB] (.js 0xFB) &&
      readsAs [0b01111001, 0xFB] (.jns 0xFB) &&
      readsAs [0b01111010, 0xFB] (.jp 0xFB) &&
      readsAs [0b01111011, 0xFB] (.jnp 0xFB) &&
      readsAs [0b01111100, 0xFB] (.jl 0xFB) &&
      readsAs [0b01111101, 0xFB] (.jnl 0xFB) &&
      readsAs [0b01111110, 0xFB] (.jle 0xFB) &&
      readsAs [0b01111111, 0xFB] (.jnle 0xFB)) = true := by
  decide

/-- The loop family, k = b0[1:0] (R84). -/
theorem test_decode_loop_family :
    (readsAs [0b11100000, 0xFE] (.loopnz 0xFE) && readsAs [0b11100001, 0xFE] (.loopz 0xFE) &&
      readsAs [0b11100010, 0xFE] (.loop 0xFE) && readsAs [0b11100011, 0xFE] (.jcxz 0xFE)) = true := by
  decide

/-- The encoder writes the raw bytes back, 0x82 and the duplicates of a register form
among them (92_eei_decisions.md D30). -/
theorem test_encode_raw_fields :
    encode (.addRmImm true .byte (.reg 1) (.imm8 5)) = [0x82, 0xC1, 0x05] ∧
      encode (.movRmReg .toRm .word 3 (.reg 0)) = [0x89, 0xD8] ∧
      encode (.movRmReg .toReg .word 0 (.reg 3)) = [0x8B, 0xC3] := by
  decide

/-! ## Decode faults (FV1, FV3 to FV5, FV9, FV13; FV2, FV6, FV11, FV14) -/

theorem test_unmapped_bytes :
    decode [0xF4] = .error (.unrecognizedOpcode [0xF4]) ∧ decode [0x26, 0x8B, 0x07] = .error (.unrecognizedOpcode [0x26]) ∧
      decode [0xEB, 0x00] = .error (.unrecognizedOpcode [0xEB]) := by
  decide

theorem test_bad_extensions :
    decode [0x80, 0xC8, 0x01] = .error (.unrecognizedOpcode [0x80, 0xC8]) ∧
      decode [0x80, 0xC8] = .error (.unrecognizedOpcode [0x80, 0xC8]) ∧
      decode [0xC7, 0xC8, 0x01, 0x00] = .error (.unrecognizedOpcode [0xC7, 0xC8]) := by
  decide

theorem test_truncated :
    decode [0x89] = .error .truncatedInstruction ∧ decode [0x8B, 0x06, 0x34] = .error .truncatedInstruction ∧
      decode [0x81, 0xC3, 0xE8] = .error .truncatedInstruction ∧ decode [0xC6, 0xC0] = .error .truncatedInstruction := by
  decide

/-- FV12: the first instruction retires, the second faults at offset 3. -/
theorem test_fault_after_an_instruction :
    afterTwo (start [0xB8, 0x05, 0x00, 0x8C, 0xC0]) (fun t =>
      t.fault == some ⟨.unrecognizedOpcode, 3, [0x8C]⟩ && t.status == .faulted && t.ip == 3 && t.retired == 1 &&
        t.x 0 == 5) = true := by
  decide

/-- FV11: the record of a truncated instruction holds all the bytes that are left. -/
theorem test_truncated_record :
    after (start [0x81, 0xC3, 0xE8]) (fun t =>
      t.fault == some ⟨.truncatedInstruction, 0, [0x81, 0xC3, 0xE8]⟩ && t.status == .faulted) = true := by
  decide

theorem test_fault_codes :
    Fault.unrecognizedOpcode.code = 1 ∧ Fault.truncatedInstruction.code = 2 ∧ Fault.invalidOperandCombination.code = 3 := by
  decide

/-! ## One step of each instruction -/

/-- MV7: the address uses the old BX. -/
theorem test_mov_reg_rm_old_base :
    after ((((start [0x8B, 0x1F]).setX 3 0x0100).setMemByte 0x0100 0x34).setMemByte 0x0101 0x12)
      (fun t => t.x 3 == 0x1234) = true := by
  decide

/-- MV8: a word at 0xFFFF wraps. -/
theorem test_mov_rm_reg_wrap :
    after (((start [0x89, 0x07]).setX 0 0xBEEF).setX 3 0xFFFF)
      (fun t => t.memByte 0xFFFF == 0xEF && t.memByte 0x0000 == 0xBE) = true := by
  decide

/-- MV9: a byte store touches one byte. -/
theorem test_mov_rm_imm_byte :
    after (((start [0xC6, 0x07, 0x80]).setX 3 0x0010).setMemByte 0x0011 0x77)
      (fun t => t.memByte 0x0010 == 0x80 && t.memByte 0x0011 == 0x77) = true := by
  decide

/-- MV10. -/
theorem test_mov_rm_imm_word :
    after ((start [0xC7, 0x47, 0xFE, 0x01, 0x00]).setX 3 0x0001)
      (fun t => t.memByte 0xFFFF == 0x01 && t.memByte 0x0000 == 0x00) = true := by
  decide

/-- MV5. -/
theorem test_mov_reg_imm_high_byte :
    after ((start [0xB4, 0x12]).setX 0 0xABCD)
      (fun t => t.x 0 == 0x12CD) = true := by
  decide

/-- MV13. -/
theorem test_mov_reg_imm_word :
    after { start [0xBC, 0xFE, 0xFF] with flags := 0x0895 }
      (fun t => t.x 4 == 0xFFFE && t.flags == 0x0895) = true := by
  decide

/-- MV11. -/
theorem test_mov_acc_mem :
    after (((start [0xA1, 0x00, 0x10]).setMemByte 0x1000 0x34).setMemByte 0x1001 0x12)
      (fun t => t.x 0 == 0x1234) = true := by
  decide

/-- MV12: a byte store. -/
theorem test_mov_mem_acc :
    after (((start [0xA2, 0x00, 0x10]).setX 0 0x3355).setMemByte 0x1001 0x99)
      (fun t => t.memByte 0x1000 == 0x55 && t.memByte 0x1001 == 0x99) = true := by
  decide

/-- AD2. -/
theorem test_add_rm_reg_overflow :
    after (((start [0x01, 0xD8]).setX 0 0x7FFF).setX 3 0x0001)
      (fun t => t.x 0 == 0x8000 && t.flags == 0x0894) = true := by
  decide

/-- AD4: no carry into AH. -/
theorem test_add_rm_reg_byte :
    after (((start [0x00, 0xD8]).setX 0 0x12FF).setX 3 0x0001)
      (fun t => t.x 0 == 0x1200 && t.flags == 0x0055) = true := by
  decide

/-- AD12: the old flags do not matter. -/
theorem test_add_rm_imm_word :
    after { (start [0x81, 0xC3, 0xE8, 0x03]).setX 3 0xFC18 with flags := 0x0881 }
      (fun t => t.x 3 == 0x0000 && t.flags == 0x0055) = true := by
  decide

/-- AD7. -/
theorem test_add_rm_imm_sign_extended :
    after ((start [0x83, 0xC0, 0xFF]).setX 0 0x0001)
      (fun t => t.x 0 == 0x0000 && t.flags == 0x0055) = true := by
  decide

/-- AD11. -/
theorem test_add_acc_imm :
    after ((start [0x04, 0xE2]).setX 0 0x1234)
      (fun t => t.x 0 == 0x1216 && t.flags == 0x0001) = true := by
  decide

/-- SB3. -/
theorem test_sub_rm_reg_borrow :
    after ((start [0x29, 0xD8]).setX 3 0x0001)
      (fun t => t.x 0 == 0xFFFF && t.flags == 0x0095) = true := by
  decide

/-- SB10. -/
theorem test_sub_rm_reg_memory :
    after ((((start [0x29, 0x07]).setX 0 0x0001).setX 3 0x0300).setMemByte 0x0301 0x01)
      (fun t => t.memByte 0x0300 == 0xFF && t.memByte 0x0301 == 0x00 && t.flags == 0x0014) = true := by
  decide

/-- SB8. -/
theorem test_sub_rm_imm :
    after ((start [0x83, 0xE9, 0xFF]).setX 1 0xFFFF)
      (fun t => t.x 1 == 0x0000 && t.flags == 0x0044) = true := by
  decide

/-- SB9. -/
theorem test_sub_acc_imm :
    after ((start [0x2D, 0x00, 0x80]).setX 0 0x7FFF)
      (fun t => t.x 0 == 0xFFFF && t.flags == 0x0885) = true := by
  decide

/-- CP6: no register changes. -/
theorem test_cmp_rm_reg :
    after ((start [0x38, 0xE0]).setX 0 0x8001)
      (fun t => t.x 0 == 0x8001 && t.flags == 0x0885) = true := by
  decide

/-- CP7. -/
theorem test_cmp_reg_rm_memory :
    after { ((start [0x3B, 0x47, 0x02]).setX 0 0x1234).setX 3 0x10 with mem := [(0x12, 0x34), (0x13, 0x12)] }
      (fun t => t.x 0 == 0x1234 && t.flags == 0x0044) = true := by
  decide

/-- CP2. -/
theorem test_cmp_rm_imm :
    after ((start [0x83, 0xF8, 0x05]).setX 0 0x0005)
      (fun t => t.x 0 == 0x0005 && t.flags == 0x0044) = true := by
  decide

/-- CP3. -/
theorem test_cmp_acc_imm :
    after ((start [0x3C, 0x80]).setX 0 0x007F)
      (fun t => t.x 0 == 0x007F && t.flags == 0x0885) = true := by
  decide

/-- The jump with this opcode, from offset 0 of a stream that holds both its targets, with these flags words: taken to 8 or
not taken to 2. -/
def takesOn (opcode : Byte) (taken notTaken : List Word) : Bool :=
  let run (f : Word) (target : Word) : Bool :=
    after { start [opcode, 6, 0, 0, 0, 0, 0, 0, 0] with flags := f } fun t => t.ip == target && t.flags == f
  taken.all (fun f => run f 8) && notTaken.all fun f => run f 2

/-- Row 70 of the flag table. -/
theorem test_jo :
    takesOn 0x70 [0x0800, 0x0880] [0x0000, 0x0001, 0x0040, 0x0080, 0x0004, 0x0041, 0x00C0] = true := by decide

/-- Row 71 of the flag table. -/
theorem test_jno :
    takesOn 0x71 [0x0000, 0x0001, 0x0040, 0x0080, 0x0004, 0x0041, 0x00C0] [0x0800, 0x0880] = true := by decide

/-- Row 72 of the flag table. -/
theorem test_jb :
    takesOn 0x72 [0x0001, 0x0041] [0x0000, 0x0040, 0x0080, 0x0800, 0x0880, 0x0004, 0x00C0] = true := by decide

/-- Row 73 of the flag table. -/
theorem test_jnb :
    takesOn 0x73 [0x0000, 0x0040, 0x0080, 0x0800, 0x0880, 0x0004, 0x00C0] [0x0001, 0x0041] = true := by decide

/-- Row 74 of the flag table. -/
theorem test_jz :
    takesOn 0x74 [0x0040, 0x0041, 0x00C0] [0x0000, 0x0001, 0x0080, 0x0800, 0x0880, 0x0004] = true := by decide

/-- Row 75 of the flag table. -/
theorem test_jnz :
    takesOn 0x75 [0x0000, 0x0001, 0x0080, 0x0800, 0x0880, 0x0004] [0x0040, 0x0041, 0x00C0] = true := by decide

/-- Row 76 of the flag table. -/
theorem test_jbe :
    takesOn 0x76 [0x0001, 0x0040, 0x0041, 0x00C0] [0x0000, 0x0080, 0x0800, 0x0880, 0x0004] = true := by decide

/-- Row 77 of the flag table. -/
theorem test_jnbe :
    takesOn 0x77 [0x0000, 0x0080, 0x0800, 0x0880, 0x0004] [0x0001, 0x0040, 0x0041, 0x00C0] = true := by decide

/-- Row 78 of the flag table. -/
theorem test_js :
    takesOn 0x78 [0x0080, 0x0880, 0x00C0] [0x0000, 0x0001, 0x0040, 0x0800, 0x0004, 0x0041] = true := by decide

/-- Row 79 of the flag table. -/
theorem test_jns :
    takesOn 0x79 [0x0000, 0x0001, 0x0040, 0x0800, 0x0004, 0x0041] [0x0080, 0x0880, 0x00C0] = true := by decide

/-- Row 7A of the flag table. -/
theorem test_jp :
    takesOn 0x7A [0x0004] [0x0000, 0x0001, 0x0040, 0x0080, 0x0800, 0x0880, 0x0041, 0x00C0] = true := by decide

/-- Row 7B of the flag table. -/
theorem test_jnp :
    takesOn 0x7B [0x0000, 0x0001, 0x0040, 0x0080, 0x0800, 0x0880, 0x0041, 0x00C0] [0x0004] = true := by decide

/-- Row 7C of the flag table. -/
theorem test_jl :
    takesOn 0x7C [0x0080, 0x0800, 0x00C0] [0x0000, 0x0001, 0x0040, 0x0880, 0x0004, 0x0041] = true := by decide

/-- Row 7D of the flag table. -/
theorem test_jnl :
    takesOn 0x7D [0x0000, 0x0001, 0x0040, 0x0880, 0x0004, 0x0041] [0x0080, 0x0800, 0x00C0] = true := by decide

/-- Row 7E of the flag table. -/
theorem test_jle :
    takesOn 0x7E [0x0040, 0x0080, 0x0800, 0x0041, 0x00C0] [0x0000, 0x0001, 0x0880, 0x0004] = true := by decide

/-- Row 7F of the flag table. -/
theorem test_jnle :
    takesOn 0x7F [0x0000, 0x0001, 0x0880, 0x0004] [0x0040, 0x0080, 0x0800, 0x0041, 0x00C0] = true := by decide

/-- T1: the target is outside the stream, ip is not clamped. -/
theorem test_jz_backward_out_of_the_stream :
    after { start [0x74, 0x80] with flags := 0x0040 }
      (fun t => t.ip == 0xFF82 && t.status == .ended) = true := by
  decide

/-- T6: a target inside an instruction, whose byte is unmapped. -/
theorem test_jump_into_an_instruction :
    afterTwo (start [0x75, 0xFF, 0x90]) (fun t =>
      t.fault == some ⟨.unrecognizedOpcode, 1, [0xFF]⟩ && t.retired == 1) = true := by
  decide

/-- LP1. -/
theorem test_loop_falls_through :
    after ((start [0xE2, 0xFE]).setX 1 0x0001)
      (fun t => t.x 1 == 0x0000 && t.ip == 0x0002) = true := by
  decide

/-- LP2. -/
theorem test_loop_wraps : after (start [0xE2, 0xFE]) (fun t => t.x 1 == 0xFFFF && t.ip == 0x0000) = true := by decide

/-- LP4. -/
theorem test_loopz_taken :
    after { (start [0x00, 0x00, 0x00, 0x00, 0xE1, 0xFC]).setX 1 0x0002 with flags := 0x0040, ip := 4 }
      (fun t => t.x 1 == 0x0001 && t.ip == 0x0002) = true := by
  decide

/-- LP5. -/
theorem test_loopz_zf_clear :
    after { (start [0x00, 0x00, 0x00, 0x00, 0xE1, 0xFC]).setX 1 0x0002 with ip := 4 }
      (fun t => t.x 1 == 0x0001 && t.ip == 0x0006) = true := by
  decide

/-- LP7. -/
theorem test_loopnz_taken :
    after { (start [0x00, 0x00, 0x00, 0x00, 0xE0, 0xFC]).setX 1 0x0005 with ip := 4 }
      (fun t => t.x 1 == 0x0004 && t.ip == 0x0002) = true := by
  decide

/-- LP9. -/
theorem test_loopnz_count_out :
    after { (start [0x00, 0x00, 0x00, 0x00, 0xE0, 0xFC]).setX 1 0x0001 with ip := 4 }
      (fun t => t.x 1 == 0x0000 && t.ip == 0x0006) = true := by
  decide

/-- LP10. -/
theorem test_jcxz_taken : after (start [0xE3, 0x05]) (fun t => t.x 1 == 0x0000 && t.ip == 0x0007) = true := by decide

/-- LP11. -/
theorem test_jcxz_not_taken :
    after ((start [0xE3, 0x05]).setX 1 0xFFFF)
      (fun t => t.x 1 == 0xFFFF && t.ip == 0x0002) = true := by
  decide

/-! ## Effective addresses, modes, the trace and the host's two questions -/

/-- EA1, EA9, EA10 and EA14, by hand from R77 and R81. -/
theorem test_effective_addresses :
    ((start []).setX 3 0xFFFF |>.setX 6 0x0002).ea (.memIndexed .bxSi 0) = some 0x0001 ∧
      (start []).ea (.memIndexed .bpDi (sext16 0xFF)) = some 0xFFFF ∧
      ((start []).setX 6 0x8000).ea (.memIndexed .si 0x8000) = some 0x0000 ∧
      ((start []).setX 3 0xFF80).ea (.memIndexed .bxSi (sext16 0x7F)) = some 0xFFFF := by
  decide

/-- DECODE_ONLY (R97): nothing is executed, and the trace record holds the decoded record alone. -/
theorem test_decode_only :
    after (State.launched [0xB8, 0x05, 0x00] .decodeOnly) (fun t =>
      t.x 0 == 0 && t.ip == 3 && t.retired == 1 && t.status == .ended &&
        t.trace.map TraceRecord.effects == [none]) = true := by
  decide

/-- The third record of program P1 (spec/95_test_vectors.md): CX 0x0001 to 0x0000, flags 0x0000 to 0x0044, ip 3 to 6. -/
theorem test_trace_record :
    after { (start [0xB9, 0x03, 0x00, 0x83, 0xE9, 0x01, 0x75, 0xFB]).setX 1 1 with ip := 3 } (fun t =>
      t.trace.map TraceRecord.effects == [some ⟨3, 6, [⟨1, 1, 0⟩], some ⟨0, 0x0044⟩, []⟩] &&
        t.trace.map (fun r => r.record.bytes) == [[0x83, 0xE9, 0x01]]) = true := by
  decide

/-- R214, by hand: ADD AL, 0 writes AL and the flags with their old values, and both are listed. -/
theorem test_trace_lists_unchanged_writes :
    after ((start [0x04, 0x00]).setX 0 0x0105) (fun t =>
      t.trace.map TraceRecord.effects ==
        [some ⟨0, 2, [⟨0, 0x0105, 0x0105⟩], some ⟨0, 0x0004⟩, []⟩]) = true := by
  decide

/-- FV18: an empty stream is ENDED at reset. -/
theorem test_reset_is_ended : State.reset.status = .ended ∧ State.reset.ip = 0 ∧ State.reset.flags = 0 := by decide

/-- The values of spec/opcode_table.json, as it numbers them. -/
theorem test_table_words :
    decodeTableWord 8 0x88 = some (.movRmReg .toRm .byte 0 (.ind .bxSi)) ∧
      decodeTableWord 16 0xC600 = some (.movRmImm .byte (.ind .bxSi) (.imm8 0)) ∧
      decodeTableWord 16 0x8028 = some (.subRmImm false .byte (.ind .bxSi) (.imm8 0)) ∧
      decodeTableWord 8 0x7F = some (.jnle 0) ∧ decodeTableWord 8 0x0F = none := by
  decide

/-- The step after `withFetchWord` runs the word's instruction: MOV r/m8, immediate writes memory byte 0. -/
theorem test_with_fetch_word :
    after ((State.reset.setMemByte 0 7).withFetchWord 16 0xC600) (fun t =>
      t.memByte 0 == 0 && t.ip == 3 && t.retired == 1 && t.status == .running) = true := by
  decide

/-- The texts of DV1, DV9, DV12, DV27 and DV29 (R100 to R104). -/
theorem test_listing :
    instrText (.movRmReg .toRm .word 3 (.reg 0)) = "mov ax, bx" ∧
      instrText (.movRmImm .word (.ind16 .bp 0x0100) (.imm16 0x3039)) = "mov [bp + 256], word 12345" ∧
      instrText (.addRmImm true .word (.direct 0x1234) (.imm8 0xFF)) = "add [4660], word -1" ∧
      instrText (.cmpAccImm .byte (.imm8 0x80)) = "cmp al, -128" ∧ instrText (.jnz 0xFB) = "jnz $-3" := by
  decide

/-! ## Witnesses: the hypotheses of each statement can be met, clause by clause where a statement has several -/

/-- A run that has listed memory: BX = 0x0100 and the word 0x1234 stored there. -/
def withData (bytes : List Byte) : State :=
  { (start bytes).setX 3 0x0100 with mem := [(0x0100, 0x34), (0x0101, 0x12)] }

theorem withData_wf (bytes : List Byte) : (withData bytes).mem.wf := by
  show Memory.wf [(0x0100, 0x34), (0x0101, 0x12)]
  decide

theorem start_sound (bytes : List Byte) (h0 : bytes ≠ []) (h : bytes.length ≤ 65535) : (start bytes).Sound where
  mem := by show Memory.wf []; decide
  flags := by show (0 : Word) &&& Flags.reservedMask = 0; decide
  stream := h
  running _ := List.length_pos_iff.2 h0
  ended h' := by
    have : bytes.length ≠ 0 := fun e => h0 (List.length_eq_zero_iff.1 e)
    simp [start, State.launched, this] at h'
  fault := by
    show (none : Option FaultRecord).isSome = true ↔ (if bytes.length = 0 then Status.ended else Status.running) = .faulted
    split <;> decide
  record r h' := nomatch h'
  trace := rfl

theorem witness_LaunchSetsResetValues :
    State.launch [] .execute = .next State.reset ∧ ∃ s, State.launch [0x89, 0xD8] .decodeOnly = .next s :=
  ⟨rfl, _, rfl⟩

theorem witness_LaunchRefusesOnlyLongStreams :
    (List.replicate 65535 (0 : Byte)).length ≤ 65535 ∧ 65535 < (List.replicate 65536 (0 : Byte)).length := by
  simp only [List.length_replicate]; decide

theorem witness_LaunchIsSound : ∃ s, State.launch [0x89, 0xD8] .decodeOnly = .next s := ⟨_, rfl⟩

/-- A sound FAULTED state: the record is the one fault entry writes. -/
theorem test_faulted_state_is_sound : ((start [0xF4]).raiseDecode (.unrecognizedOpcode [0xF4])).Sound where
  mem := by show Memory.wf []; decide
  flags := by show (0 : Word) &&& Flags.reservedMask = 0; decide
  stream := by decide
  running h := nomatch h
  ended h := nomatch h
  fault := by decide
  record r h := by
    cases h
    exact ⟨⟨_, rfl, rfl⟩, by decide, by decide, by decide⟩
  trace := rfl

theorem witness_StepKeepsSound : (start [0x89, 0xD8]).Sound ∧ ∃ t, step (start [0x89, 0xD8]) = .next t :=
  ⟨start_sound _ (by decide) (by decide), _, rfl⟩

theorem witness_NoFaultDuringExecution : ∃ t, step (start [0xF4]) = .next t ∧ t.fault ≠ (start [0xF4]).fault :=
  ⟨_, rfl, by decide⟩

theorem witness_InvalidOperandCombinationUnreachable :
    (∃ i r p, decode [0x89, 0xD8] = .ok (i, r) ∧ i.operands = some p) ∧
      ∃ (t : State) (r : FaultRecord), t.Reachable ∧ t.fault = some r :=
  ⟨⟨.movRmReg .toRm .word 3 (.reg 0), [], _, by decide, rfl⟩,
    _, _, ⟨[0xF4], .execute, _, rfl, .tail (.refl _) rfl⟩, rfl⟩

theorem witness_DecodeFaultEntry :
    (start [0xF4]).status = .running ∧ decode (start [0xF4]).fetchBytes = .error (.unrecognizedOpcode [0xF4]) ∧
      (start [0x89]).status = .running ∧ decode (start [0x89]).fetchBytes = .error .truncatedInstruction := by
  decide

theorem witness_StoppedStateNeverChanges :
    State.reset.Stopped ∧ ((start [0xF4]).raise .unrecognizedOpcode [0xF4]).Stopped ∧ Steps State.reset State.reset :=
  ⟨.inl rfl, .inr rfl, .refl _⟩

theorem witness_StepRunsDecodedInstruction :
    (Instr.jnz 0xFB).wf = true ∧ (start [0x75, 0xFB, 0x90]).status = .running ∧
      (start [0x75, 0xFB, 0x90]).mode = .execute ∧
      (start [0x75, 0xFB, 0x90]).fetchBytes = encode (.jnz 0xFB) ++ [0x90] := by
  decide

theorem witness_DecodeOnlyStepOnlyAdvances :
    (Instr.jnz 0xFB).wf = true ∧ (State.launched [0x75, 0xFB] .decodeOnly).status = .running ∧
      (State.launched [0x75, 0xFB] .decodeOnly).mode = .decodeOnly ∧
      (State.launched [0x75, 0xFB] .decodeOnly).fetchBytes = encode (.jnz 0xFB) ++ [] := by
  decide

/-- An empty launch, one step that ends the run (ip = 2 = L) and one that does not (ip = 0). -/
theorem witness_RunEndsExactlyOutsideStream :
    (∃ s, State.launch [] .decodeOnly = .next s ∧ s.status = .ended) ∧
      (∃ i t u, decode (start [0x89, 0xD8]).fetchBytes = .ok (i, []) ∧ step (start [0x89, 0xD8]) = .next t ∧
        exec i (start [0x89, 0xD8]) = .next u ∧ t.status = .ended) ∧
      ∃ i t u, decode (start [0x75, 0xFE]).fetchBytes = .ok (i, []) ∧ step (start [0x75, 0xFE]) = .next t ∧
        exec i (start [0x75, 0xFE]) = .next u ∧ t.status = .running :=
  ⟨⟨_, rfl, by decide⟩, ⟨_, _, _, rfl, rfl, rfl, by decide⟩, ⟨_, _, _, rfl, rfl, rfl, by decide⟩⟩

theorem witness_RetirementCountsAndTraces :
    (∃ s, State.launch [0x89, 0xD8] .execute = .next s) ∧
      (∃ t, exec (.movRmReg .toRm .word 3 (.reg 0)) (start [0x89, 0xD8]) = .next t) ∧
      ((∃ t, step (start [0x89, 0xD8]) = .next t) ∧ (start [0x89, 0xD8]).status = .running ∧
        ∃ p, decode (start [0x89, 0xD8]).fetchBytes = .ok p) ∧
      (∃ t, step State.reset = .next t) ∧ State.reset.status ≠ .running :=
  ⟨⟨_, rfl⟩, ⟨_, rfl⟩, ⟨⟨_, rfl⟩, rfl, _, rfl⟩, ⟨_, rfl⟩, by decide⟩

/-- A register, a memory byte and the flags change: ADD AX, [BX], and MOV [BX], AX. -/
theorem witness_TraceRecordShowsEveryChange :
    (withData []).mem.wf ∧
      (∃ t, exec (.addRmReg .toReg .word 0 (.ind .bx)) (withData []) = .next t ∧ t.x 0 ≠ (withData []).x 0) ∧
      (∃ t, exec (.subRmReg .toReg .byte 4 (.reg 7)) (withData []) = .next t ∧ t.flags ≠ (withData []).flags) ∧
      ∃ t, exec (.movRmReg .toRm .word 0 (.ind .bx)) (withData []) = .next t ∧
        t.memByte 0x0100 ≠ (withData []).memByte 0x0100 :=
  ⟨withData_wf _, ⟨_, rfl, by decide⟩, ⟨_, rfl, by decide⟩, ⟨_, rfl, by decide⟩⟩

/-- Each clause: a byte register destination (AH, in AX), a word memory destination, CMP, a jump, LOOP and JCXZ. -/
theorem witness_TraceRecordListsExactlyTheWrites :
    (∃ t src, exec (.movRegImm .byte 4 (.imm8 0)) (withData []) = .next t ∧ (Instr.movRegImm .byte 4 (.imm8 0)).op = .mov ∧
        (Instr.movRegImm .byte 4 (.imm8 0)).width = some .byte ∧
        (Instr.movRegImm .byte 4 (.imm8 0)).operands = some (.reg .byte 4, src)) ∧
      (∃ t dst src a, exec (.addRmReg .toRm .word 0 (.ind .bx)) (withData []) = .next t ∧
        (Instr.addRmReg .toRm .word 0 (.ind .bx)).op = .add ∧
        (Instr.addRmReg .toRm .word 0 (.ind .bx)).width = some .word ∧
        (Instr.addRmReg .toRm .word 0 (.ind .bx)).operands = some (dst, src) ∧ (withData []).ea dst = some a) ∧
      (∃ t, exec (.cmpAccImm .byte (.imm8 5)) (withData []) = .next t ∧ (Instr.cmpAccImm .byte (.imm8 5)).op = .cmp) ∧
      (∃ t, exec (.jz 0) (withData []) = .next t ∧ (Instr.jz 0).op = .jcc 4) ∧
      (∃ t, exec (.loop 0) (withData []) = .next t ∧ (Instr.loop 0).op = .loopk 2) ∧
      ∃ t, exec (.jcxz 0) (withData []) = .next t ∧ (Instr.jcxz 0).op = .loopk 3 :=
  ⟨⟨_, _, rfl, rfl, rfl, rfl⟩, ⟨_, _, _, _, rfl, rfl, rfl, rfl, rfl⟩, ⟨_, rfl, rfl⟩, ⟨_, rfl, rfl⟩, ⟨_, rfl, rfl⟩,
    _, rfl, rfl⟩

theorem witness_ModeDoesNotChangeDecoding :
    (∃ t, step (start [0xE2, 0xFE]) = .next t) ∧
      ∃ u, step { start [0xE2, 0xFE] with mode := .decodeOnly } = .next u :=
  ⟨⟨_, rfl⟩, _, rfl⟩

theorem witness_DecodeGivesBackEncodedInstruction :
    (Instr.movRmImm .word (.ind16 .bp 0x0100) (.imm16 0x3039)).wf = true := by decide

theorem witness_EncodeGivesBackDecodedBytes :
    decode [0x82, 0xC1, 0x05, 0x90] = .ok (.addRmImm true .byte (.reg 1) (.imm8 5), [0x90]) := by decide

theorem witness_RegisterDirectEncodingsRoundTrip :
    (0x8B : Byte) &&& 0xFC = 0x88 ∧ (0x00 : Byte) &&& 0xFC = 0x00 ∧ (0x2A : Byte) &&& 0xFC = 0x28 ∧
      (0x39 : Byte) &&& 0xFC = 0x38 ∧ (0xFF : Byte) &&& 0xC0 = 0xC0 := by
  decide

theorem witness_DecodedLengthIsExact :
    decode [0xC7, 0x86, 0x00, 0x01, 0x39, 0x30] =
        .ok (.movRmImm .word (.ind16 .bp 0x0100) (.imm16 0x3039), []) ∧
      (start [0xC7, 0x86, 0x00, 0x01, 0x39, 0x30]).Sound ∧
      ∃ t x, step (start [0xC7, 0x86, 0x00, 0x01, 0x39, 0x30]) = .next t ∧
        t.trace = (start [0xC7, 0x86, 0x00, 0x01, 0x39, 0x30]).trace ++ [x] :=
  ⟨by decide, start_sound _ (by decide) (by decide), _, _, rfl, rfl⟩

/-- Both kinds of unmapped bytes, at the ends of the mapped ranges. -/
theorem witness_UnrecognizedOpcodeExactly :
    decode [0x06] = .error (.unrecognizedOpcode [0x06]) ∧ decode [0xE4, 0x00] = .error (.unrecognizedOpcode [0xE4]) ∧
      decode [0x83, 0xF0] = .error (.unrecognizedOpcode [0x83, 0xF0]) ∧
      decode [0xC6, 0x08] = .error (.unrecognizedOpcode [0xC6, 0x08]) := by
  decide

/-- Each clause at a boundary: an unmapped byte, a form with a modrm byte, a bad extension, a stream one byte short and a
stream exactly long enough. -/
theorem witness_FirstFailingCheckIsReported :
    ¬Mapped 0x06 ∧ Mapped 0x05 ∧ HasModRm 0x8B ∧ BadExtension 0x80 0xC8 ∧ BadExtension 0xC7 0x38 ∧
      (Mapped 0xC7 ∧ ¬BadExtension 0xC7 0x86 ∧
        [(0xC7 : Byte), 0x86, 0x00, 0x01, 0x39].length < formLength 0xC7 0x86) ∧
      formLength 0xC7 0x86 ≤ [(0xC7 : Byte), 0x86, 0x00, 0x01, 0x39, 0x30].length := by
  refine ⟨?_, ?_, ?_, ?_, ?_, ⟨?_, ?_, ?_⟩, ?_⟩ <;> simp [Mapped, HasModRm, BadExtension, formLength, dispSize]

theorem witness_DecodingReadsOnlyItsOwnBytes :
    decode [0xB0, 0x05, 0x90] = .ok (.movRegImm .byte 0 (.imm8 5), [0x90]) := by decide

theorem witness_SignExtendBitRule :
    groupOp 0b000 = some .addRmImm ∧ groupOp 0b101 = some .subRmImm ∧ groupOp 0b111 = some .cmpRmImm ∧
      (RmOperand.ind16 .bxSi 0x8000).wf = true :=
  ⟨rfl, rfl, rfl, rfl⟩

theorem witness_ModRmEffectiveAddress : (7 : BitVec 3) ≠ 6 ∧ (0 : BitVec 3) ≠ 6 := by decide

theorem witness_HalfRegisterWrite :
    ((0 : RegCode).toNat < 4 ∧ (3 : RegCode).toNat < 4 ∧ (4 : RegCode) ≠ 3) ∧
      4 ≤ (4 : RegCode).toNat ∧ 4 ≤ (7 : RegCode).toNat ∧ (0 : RegCode) ≠ 7 - 4 := by
  decide

theorem witness_ReadOperandRule :
    (withData []).ea (.memIndexed .bx 0xFF01) = some 0x0001 ∧ (withData []).ea (.memDirect 0xFFFF) = some 0xFFFF ∧
      (Imm.imm8 0x80).fits .byte = true ∧ (Imm.imm16 0x8000).fits .word = true := by
  decide

theorem witness_MemoryReadRule :
    (0 : Word).toNat = ((0xFFFF : Word).toNat + 1) % 65536 ∧ (1 : Word).toNat = ((0 : Word).toNat + 1) % 65536 := by
  decide

theorem witness_MemoryWriteRule : (withData []).mem.wf ∧ (start []).mem.wf := ⟨withData_wf _, by decide⟩

theorem witness_OnlyArithmeticWritesFlags :
    (∃ t, exec (.cmpAccImm .byte (.imm8 5)) (start []) = .next t) ∧ (Instr.cmpAccImm .byte (.imm8 5)).op = .cmp ∧
      (∃ t, exec (.loop 0xFE) (start []) = .next t) ∧ (Instr.loop 0xFE).op ≠ .add ∧ (Instr.loop 0xFE).op ≠ .sub ∧
      (Instr.loop 0xFE).op ≠ .cmp :=
  ⟨⟨_, rfl⟩, rfl, ⟨_, rfl⟩, by decide, by decide, by decide⟩

theorem witness_MovRegisterMemoryResult : (withData []).mem.wf := withData_wf _

theorem witness_MovImmediateResult :
    (withData []).mem.wf ∧ (Imm.imm8 0x80).fits .byte = true ∧ (Imm.imm16 0x8000).fits .word = true :=
  ⟨withData_wf _, rfl, rfl⟩

theorem witness_MovAccumulatorResult : (withData []).mem.wf := withData_wf _

theorem witness_MovFrame :
    (withData []).mem.wf ∧ (Instr.movRmReg .toRm .word 0 (.ind .bx)).op = .mov ∧
      (Instr.movRmReg .toRm .word 0 (.ind .bx)).width = some .word ∧
      (∃ p, (Instr.movRmReg .toRm .word 0 (.ind .bx)).operands = some p) ∧
      ∃ t, exec (.movRmReg .toRm .word 0 (.ind .bx)) (withData []) = .next t :=
  ⟨withData_wf _, rfl, rfl, ⟨_, rfl⟩, _, rfl⟩

theorem witness_AddResult :
    (withData []).mem.wf ∧ (Imm.imm8 0xFF).fitsGroup true .word = true ∧ (Imm.imm16 0x0100).fitsGroup false .word = true ∧
      (Imm.imm8 5).fitsGroup true .byte = true ∧ (Imm.imm8 5).fits .byte = true ∧ (Imm.imm16 5).fits .word = true :=
  ⟨withData_wf _, rfl, rfl, rfl, rfl, rfl⟩

theorem witness_SubResult :
    (withData []).mem.wf ∧ (Imm.imm8 0xFF).fitsGroup true .word = true ∧ (Imm.imm16 0x0100).fitsGroup false .word = true ∧
      (Imm.imm8 5).fitsGroup false .byte = true ∧ (Imm.imm8 5).fits .byte = true ∧ (Imm.imm16 5).fits .word = true :=
  ⟨withData_wf _, rfl, rfl, rfl, rfl, rfl⟩

theorem witness_CmpResult :
    (Imm.imm8 0xFF).fitsGroup true .word = true ∧ (Imm.imm16 0x0100).fitsGroup false .word = true ∧
      (Imm.imm8 5).fitsGroup false .byte = true ∧ (Imm.imm8 5).fits .byte = true ∧ (Imm.imm16 5).fits .word = true :=
  ⟨rfl, rfl, rfl, rfl, rfl⟩

theorem witness_CmpSetsTheFlagsOfSub :
    (∃ t, exec (.cmpRmReg .toReg .word 0 (.ind .bx)) (withData []) = .next t) ∧
      (∃ u, exec (.subRmReg .toReg .word 0 (.ind .bx)) (withData []) = .next u) ∧
      (∃ t, exec (.cmpRmImm true .word (.ind .bx) (.imm8 1)) (withData []) = .next t) ∧
      (∃ u, exec (.subRmImm true .word (.ind .bx) (.imm8 1)) (withData []) = .next u) ∧
      (∃ t, exec (.cmpAccImm .byte (.imm8 1)) (withData []) = .next t) ∧
      ∃ u, exec (.subAccImm .byte (.imm8 1)) (withData []) = .next u :=
  ⟨⟨_, rfl⟩, ⟨_, rfl⟩, ⟨_, rfl⟩, ⟨_, rfl⟩, ⟨_, rfl⟩, _, rfl⟩

theorem witness_AddSubFrame :
    (withData []).mem.wf ∧ (Instr.addRmReg .toRm .byte 7 (.ind .bx)).op = .add ∧
      (Instr.addRmReg .toRm .byte 7 (.ind .bx)).width = some .byte ∧
      (∃ p, (Instr.addRmReg .toRm .byte 7 (.ind .bx)).operands = some p) ∧
      ∃ t, exec (.addRmReg .toRm .byte 7 (.ind .bx)) (withData []) = .next t :=
  ⟨withData_wf _, rfl, rfl, ⟨_, rfl⟩, _, rfl⟩

theorem witness_OnlyMemoryDestinationsModifyMemory :
    (∃ t, exec (.movRmReg .toRm .word 0 (.ind .bx)) (withData []) = .next t ∧ t.mem ≠ (withData []).mem) ∧
      ∃ s t, s.mode = .decodeOnly ∧ step s = .next t ∧ s.status = .running :=
  ⟨⟨_, rfl, by decide⟩, State.launched [0x89, 0x07] .decodeOnly, _, rfl, rfl, rfl⟩

/-- Each of the three forms of CMP. -/
theorem witness_JumpAfterCompareDecidesOrder :
    ∀ i ∈ [Instr.cmpRmReg .toRm .word 0 (.ind .bx), .cmpRmImm true .word (.ind .bx) (.imm8 0x80),
        .cmpAccImm .word (.imm16 5)],
      i.op = .cmp ∧ i.width = some .word ∧ (∃ p, i.operands = some p) ∧ ∃ t, exec i (withData []) = .next t := by
  intro i hi
  simp only [List.mem_cons, List.not_mem_nil, or_false] at hi
  rcases hi with rfl | rfl | rfl <;> exact ⟨rfl, rfl, ⟨_, rfl⟩, _, rfl⟩

theorem witness_InstructionPointerAdvance :
    (start [0x75, 0xFE]).Sound ∧ (start [0x75, 0xFE]).status = .running ∧
      decode (start [0x75, 0xFE]).fetchBytes = .ok (.jnz 0xFE, []) ∧ ∃ u, exec (.jnz 0xFE) (start [0x75, 0xFE]) = .next u :=
  ⟨start_sound _ (by decide) (by decide), by decide, by decide, _, rfl⟩

theorem witness_StreamAndModeAreFixed : ∃ t, Steps (start [0x75, 0xFE]) t ∧ t.retired = 1 :=
  ⟨_, .tail (.refl _) rfl, rfl⟩

end Sys2Proof.Tests
end

section
/-! What an instruction reads and writes, said once for all forms: `Meaning` sorts the instructions by the shared operation
they run, and `exec_of_sameInputs` derives from it that the result depends on registers, memory, `ip` and (but for ADD, SUB
and CMP) the flags, and that nothing else changes. -/

namespace Sys2Proof.Machine

/-! ## Operands read registers and memory only -/

theorem State.baseValue_of_regs {s s' : State} (h : s'.regs = s.regs) (b : BaseExpr) :
    s'.baseValue b = s.baseValue b := by
  cases b <;> simp [State.baseValue, State.x_of_regs h]

theorem State.readOp_congr {s s' : State} (hr : s'.regs = s.regs) (hm : s'.mem = s.mem) (w : Width) (o : Operand) :
    s'.readOp w o = s.readOp w o := by
  cases o with
  | reg u c => exact State.readReg_of_regs hr w c
  | memDirect a => exact State.memRead_of_mem hm w a
  | memIndexed b d =>
    rw [State.readOp, State.readOp, State.baseValue_of_regs hr]
    exact State.memRead_of_mem hm w _
  | imm v => rfl

theorem State.writeReg_congr {s s' : State} (hr : s'.regs = s.regs) (w : Width) (c : RegCode) (v : BitVec w.bits) :
    s'.writeReg w c v = { s' with regs := (s.writeReg w c v).regs } := by
  cases w with
  | byte =>
    simp only [State.writeReg, State.setX8, State.x_of_regs hr]
    split <;> simp [State.setX, hr]
  | word => simp [State.writeReg, State.setX, hr]

theorem State.memWrite_congr {s s' : State} (hm : s'.mem = s.mem) (w : Width) (a : Word) (v : BitVec w.bits) :
    s'.memWrite w a v = { s' with mem := (s.memWrite w a v).mem } := by
  cases w <;> simp [State.memWrite, State.setMemByte, hm]

/-- `WriteOp` on another state with the same registers and memory does the same to them, and changes nothing else (R95). -/
theorem State.writeOp_congr {s s' t : State} {w : Width} {o : Operand} {v : BitVec w.bits} (hr : s'.regs = s.regs)
    (hm : s'.mem = s.mem) (h : s.writeOp w o v = .next t) :
    s'.writeOp w o v = .next { s' with regs := t.regs, mem := t.mem } := by
  cases o with
  | reg u c =>
    cases h
    simp [State.writeOp, State.writeReg_congr hr, ← hm]
  | memDirect a =>
    cases h
    simp [State.writeOp, State.memWrite_congr hm, ← hr]
  | memIndexed b d =>
    cases h
    simp [State.writeOp, State.memWrite_congr hm, State.baseValue_of_regs hr, ← hr]
  | imm x => cases h

/-! ## The instructions by the operation they run -/

/-- The registers and the flags of a state, in a state that holds nothing else: all that a jump's condition reads
(R162, R179). -/
def State.conditionInputs (s : State) : State := { State.reset with regs := s.regs, flags := s.flags }

/-- The shared operation an instruction runs, with the operands that it runs it on. -/
inductive Meaning (i : Instr) : Prop where
  | mov (w : Width) (dst src : Operand) (writes : writesFlags i = false)
      (writable : ∀ (s : State) v, ∃ t, s.writeOp w dst v = .next t)
      (run : ∀ s, exec i s = movOp w dst src (s.endOf i) s)
  | alu (w : Width) (result : BitVec w.bits → BitVec w.bits → AluResult w.bits) (dst src : Operand)
      (writes : writesFlags i = true) (writable : ∀ (s : State) v, ∃ t, s.writeOp w dst v = .next t)
      (run : ∀ s, exec i s = aluWrite w dst (result (s.readOp w dst) (s.readOp w src)) (s.endOf i) s)
  | cmp (w : Width) (dst src : Operand) (writes : writesFlags i = true)
      (run : ∀ s, exec i s = cmpOp w dst src (s.endOf i) s)
  | jump (taken : State → Bool) (rel : Byte) (writes : writesFlags i = false)
      (run : ∀ s, exec i s = .next (s.branch (taken s.conditionInputs) (s.endOf i) rel))
  | countdown (taken : State → Bool) (rel : Byte) (writes : writesFlags i = false)
      (run : ∀ s, exec i s = loopOp (taken s.conditionInputs) (s.endOf i) rel s)

/-- Every instruction has a meaning, one arm of `exec` each. -/
theorem Meaning.of : ∀ i : Instr, Meaning i
  | .movRmReg d w reg rm => .mov w _ _ rfl (fun s => s.writeOp_rmRegDst d w reg rm) fun _ => rfl
  | .movRmImm w rm _ => .mov w _ _ rfl (fun s => s.writeOp_rmOperand w rm) fun _ => rfl
  | .movRegImm w reg imm => .mov w (.reg w reg) (.imm imm) rfl (fun _ _ => ⟨_, rfl⟩) fun _ => rfl
  | .movAccMem w addr => .mov w (accumulator w) (.memDirect addr) rfl (fun _ _ => ⟨_, rfl⟩) fun _ => rfl
  | .movMemAcc w addr => .mov w (.memDirect addr) (accumulator w) rfl (fun _ _ => ⟨_, rfl⟩) fun _ => rfl
  | .addRmReg d w reg rm => .alu w addFlags _ _ rfl (fun s => s.writeOp_rmRegDst d w reg rm) fun _ => rfl
  | .addRmImm _ w rm _ => .alu w addFlags _ _ rfl (fun s => s.writeOp_rmOperand w rm) fun _ => rfl
  | .addAccImm w imm => .alu w addFlags (accumulator w) (.imm imm) rfl (fun _ _ => ⟨_, rfl⟩) fun _ => rfl
  | .subRmReg d w reg rm => .alu w subFlags _ _ rfl (fun s => s.writeOp_rmRegDst d w reg rm) fun _ => rfl
  | .subRmImm _ w rm _ => .alu w subFlags _ _ rfl (fun s => s.writeOp_rmOperand w rm) fun _ => rfl
  | .subAccImm w imm => .alu w subFlags (accumulator w) (.imm imm) rfl (fun _ _ => ⟨_, rfl⟩) fun _ => rfl
  | .cmpRmReg _ w _ _ => .cmp w _ _ rfl fun _ => rfl
  | .cmpRmImm _ w _ _ => .cmp w _ _ rfl fun _ => rfl
  | .cmpAccImm w _ => .cmp w _ _ rfl fun _ => rfl
  | .jo rel => .jump (fun s => s.of) rel rfl fun _ => rfl
  | .jno rel => .jump (fun s => !s.of) rel rfl fun _ => rfl
  | .jb rel => .jump (fun s => s.cf) rel rfl fun _ => rfl
  | .jnb rel => .jump (fun s => !s.cf) rel rfl fun _ => rfl
  | .jz rel => .jump (fun s => s.zf) rel rfl fun _ => rfl
  | .jnz rel => .jump (fun s => !s.zf) rel rfl fun _ => rfl
  | .jbe rel => .jump (fun s => s.cf || s.zf) rel rfl fun _ => rfl
  | .jnbe rel => .jump (fun s => !s.cf && !s.zf) rel rfl fun _ => rfl
  | .js rel => .jump (fun s => s.sf) rel rfl fun _ => rfl
  | .jns rel => .jump (fun s => !s.sf) rel rfl fun _ => rfl
  | .jp rel => .jump (fun s => s.pf) rel rfl fun _ => rfl
  | .jnp rel => .jump (fun s => !s.pf) rel rfl fun _ => rfl
  | .jl rel => .jump (fun s => s.sf != s.of) rel rfl fun _ => rfl
  | .jnl rel => .jump (fun s => s.sf == s.of) rel rfl fun _ => rfl
  | .jle rel => .jump (fun s => s.zf || s.sf != s.of) rel rfl fun _ => rfl
  | .jnle rel => .jump (fun s => !s.zf && s.sf == s.of) rel rfl fun _ => rfl
  | .loopnz rel => .countdown (fun s => s.decCx != 0 && !s.zf) rel rfl fun _ => rfl
  | .loopz rel => .countdown (fun s => s.decCx != 0 && s.zf) rel rfl fun _ => rfl
  | .loop rel => .countdown (fun s => s.decCx != 0) rel rfl fun _ => rfl
  | .jcxz rel => .jump (fun s => s.cx == 0) rel rfl fun _ => rfl

/-- Every instruction answers a next state: no decoded operand is an immediate destination (R203). -/
theorem exec_next (i : Instr) (s : State) : ∃ t, exec i s = .next t := by
  cases Meaning.of i with
  | mov w dst src _ writable run =>
    obtain ⟨u, hu⟩ := writable s (s.readOp w src)
    exact ⟨u.setIp (s.endOf i), by rw [run, movOp, hu, onNext_next]⟩
  | alu w result dst src _ writable run =>
    obtain ⟨u, hu⟩ := writable s (result (s.readOp w dst) (s.readOp w src)).value
    exact ⟨_, by rw [run, aluWrite, hu, onNext_next]⟩
  | cmp w dst src _ run => exact ⟨_, run s⟩
  | jump taken rel _ run => exact ⟨_, run s⟩
  | countdown taken rel _ run => exact ⟨_, run s⟩

/-! ## What an instruction reads and what it changes -/

/-- `s'` agrees with `s` on all that instruction `i` reads: registers, `ip`, memory, and the flags unless `i` overwrites
them all. -/
structure SameInputs (i : Instr) (s s' : State) : Prop where
  regs : s'.regs = s.regs
  ip : s'.ip = s.ip
  mem : s'.mem = s.mem
  flags : writesFlags i = false → s'.flags = s.flags

theorem SameInputs.refl (i : Instr) (s : State) : SameInputs i s s := ⟨rfl, rfl, rfl, fun _ => rfl⟩

theorem SameInputs.endOf {i : Instr} {s s' : State} (h : SameInputs i s s') : s'.endOf i = s.endOf i := by
  simp [State.endOf, h.ip]

theorem SameInputs.conditionInputs {i : Instr} {s s' : State} (h : SameInputs i s s') (hw : writesFlags i = false) :
    s'.conditionInputs = s.conditionInputs := by
  simp [State.conditionInputs, h.regs, h.flags hw]

/-- `s` with the registers, `ip`, flags and memory of `t`. -/
def State.withResults (s t : State) : State := { s with regs := t.regs, ip := t.ip, flags := t.flags, mem := t.mem }

/-- An instruction reads only its inputs and changes only registers, `ip`, flags and memory. -/
theorem exec_of_sameInputs {i : Instr} {s s' t : State} (hs : SameInputs i s s') (h : exec i s = .next t) :
    exec i s' = .next (s'.withResults t) := by
  have hread := State.readOp_congr hs.regs hs.mem
  cases Meaning.of i with
  | mov w dst src writes _ run =>
    rw [run] at h ⊢
    obtain ⟨u, hu, rfl⟩ := movOp_next h
    obtain ⟨-, hflags, -⟩ := State.writeOp_keeps hu
    rw [movOp, hread, hs.endOf, State.writeOp_congr hs.regs hs.mem hu]
    simp [State.withResults, State.setIp, hflags, ← hs.flags writes]
  | alu w result dst src _ _ run =>
    rw [run] at h ⊢
    obtain ⟨u, hu, rfl⟩ := aluWrite_next h
    rw [aluWrite, hread, hread, hs.endOf, State.writeOp_congr hs.regs hs.mem hu]
    rfl
  | cmp w dst src _ run =>
    rw [run] at h ⊢
    cases h
    rw [cmpOp, hread, hread, hs.endOf]
    simp [State.withResults, State.setIp, State.setFlags, ← hs.regs, ← hs.mem]
  | jump taken rel writes run =>
    rw [run] at h ⊢
    cases h
    rw [hs.endOf, hs.conditionInputs writes]
    simp [State.withResults, State.branch, State.setIp, ← hs.regs, ← hs.mem, ← hs.flags writes]
  | countdown taken rel writes run =>
    rw [run] at h ⊢
    cases h
    rw [loopOp, hs.endOf, hs.conditionInputs writes]
    simp [State.withResults, State.branch, State.setIp, State.setX, State.decCx, State.cx, State.x, ← hs.regs, ← hs.mem,
      ← hs.flags writes]

/-- The frame of every instruction: only registers, `ip`, flags and memory change. -/
theorem exec_eq_withResults {i : Instr} {s t : State} (h : exec i s = .next t) : t = s.withResults t := by
  simpa [h] using exec_of_sameInputs (SameInputs.refl i s) h

theorem exec_sameControl {i : Instr} {s t : State} (h : exec i s = .next t) : SameControl s t := by
  rw [exec_eq_withResults h]
  exact ⟨rfl, rfl, rfl, rfl, rfl, rfl⟩

theorem exec_flags_of_not_writesFlags {i : Instr} {s t : State} (hw : writesFlags i = false) (h : exec i s = .next t) :
    t.flags = s.flags := by
  cases Meaning.of i with
  | mov w dst src _ _ run =>
    obtain ⟨u, hu, rfl⟩ := movOp_next (run s ▸ h)
    obtain ⟨-, hflags, -⟩ := State.writeOp_keeps hu
    exact hflags
  | alu w result dst src writes _ run => simp [hw] at writes
  | cmp w dst src writes run => simp [hw] at writes
  | jump taken rel _ run =>
    cases (run s).symm.trans h
    rfl
  | countdown taken rel _ run =>
    cases (run s).symm.trans h
    rfl

theorem writesFlags_eq_true_iff (i : Instr) : writesFlags i = true ↔ i.op = .add ∨ i.op = .sub ∨ i.op = .cmp := by
  unfold writesFlags
  cases i.op <;> simp

/-! ## The step cycle -/

/-- The instruction of a step never faults, so a step finds the machine stopped, faults in the decoder, or retires (R96, R98). -/
theorem step_cases_retire {s t : State} (h : step s = .next t) :
    (s.Stopped ∧ t = s) ∨
    (∃ e, s.status = .running ∧ decode s.fetchBytes = .error e ∧ t = s.raiseDecode e) ∨
    (∃ i r u x, s.status = .running ∧ decode s.fetchBytes = .ok (i, r) ∧ SameControl s u ∧ t = u.retire x) := by
  obtain hstop | herr | ⟨i, r, hs, hd, -, rfl⟩ | ⟨i, r, u, hs, hd, -, hx, rfl⟩ | ⟨i, r, c, -, -, -, hx, -⟩ := step_cases h
  · exact .inl hstop
  · exact .inr (.inl herr)
  · exact .inr (.inr ⟨i, r, s.setIp (s.endOf i), _, hs, hd, ⟨rfl, rfl, rfl, rfl, rfl, rfl⟩, rfl⟩)
  · exact .inr (.inr ⟨i, r, u, _, hs, hd, exec_sameControl hx, rfl⟩)
  · obtain ⟨u, hu⟩ := exec_next i s
    simp [hu] at hx

theorem step_keeps_stream_mode {s t : State} (h : step s = .next t) : t.stream = s.stream ∧ t.mode = s.mode := by
  obtain ⟨-, rfl⟩ | ⟨e, -, -, rfl⟩ | ⟨i, r, u, x, -, -, ⟨-, hmode, hstream, -⟩, rfl⟩ := step_cases_retire h
  · exact ⟨rfl, rfl⟩
  · exact ⟨rfl, rfl⟩
  · exact ⟨hstream, hmode⟩

theorem not_running_of_stopped {s : State} (h : s.Stopped) : s.status ≠ .running := by
  rcases h with h | h <;> simp [h]

theorem launch_next {bs : List Byte} {m : Mode} {s : State} (h : State.launch bs m = .next s) : s = .launched bs m := by
  unfold State.launch at h
  split at h
  · cases h; rfl
  · cases h

end Sys2Proof.Machine
end

section
/-! The half of a word, as the masks of R22 write it. -/

namespace Sys2Proof

theorem wordOf_and_wordOf (a b c d : Byte) : wordOf a b &&& wordOf c d = wordOf (a &&& c) (b &&& d) := BitVec.and_append

theorem wordOf_or_wordOf (a b c d : Byte) : wordOf a b ||| wordOf c d = wordOf (a ||| c) (b ||| d) := BitVec.or_append

theorem wordOf_highByte_eq_or (x : Word) (v : Byte) : wordOf v (highByte x) = (x &&& 0xFF00) ||| v.setWidth 16 := by
  have hmask : (0xFF00 : Word) = wordOf 0 (BitVec.allOnes 8) := by decide
  have hv : v.setWidth 16 = wordOf v 0 := BitVec.setWidth_eq_append (by decide)
  calc wordOf v (highByte x)
      = (wordOf (lowByte x) (highByte x) &&& wordOf 0 (BitVec.allOnes 8)) ||| wordOf v 0 := by
        rw [wordOf_and_wordOf, wordOf_or_wordOf, BitVec.and_allOnes]
        simp
    _ = (x &&& 0xFF00) ||| v.setWidth 16 := by rw [wordOf_lowByte_highByte, hmask, hv]

theorem wordOf_lowByte_eq_or (x : Word) (v : Byte) :
    wordOf (lowByte x) v = (x &&& (0x00FF : Word)) ||| (v.setWidth 16 <<< 8) := by
  have hmask : (0x00FF : Word) = wordOf (BitVec.allOnes 8) 0 := by decide
  have hv : v.setWidth 16 <<< 8 = wordOf 0 v := by
    simpa [wordOf] using (BitVec.setWidth_append_eq_shiftLeft_setWidth_or (b := v) (b' := (0 : Byte)) (w'' := 16)).symm
  calc wordOf (lowByte x) v
      = (wordOf (lowByte x) (highByte x) &&& wordOf (BitVec.allOnes 8) 0) ||| wordOf 0 v := by
        rw [wordOf_and_wordOf, wordOf_or_wordOf, BitVec.and_allOnes]
        simp
    _ = (x &&& (0x00FF : Word)) ||| (v.setWidth 16 <<< 8) := by rw [wordOf_lowByte_highByte, hmask, hv]

namespace Machine

/-! ## The byte registers (R21, R22), one equation per half -/

variable {s : State} {c : RegCode}

theorem State.x8_low (hc : c.toNat < 4) : s.x8 c = lowByte (s.x c) := if_pos hc

theorem State.x8_high (hc : 4 ≤ c.toNat) : s.x8 c = highByte (s.x (c - 4)) := if_neg (Nat.not_lt.2 hc)

theorem State.setX8_low (hc : c.toNat < 4) (v : Byte) :
    s.setX8 c v = s.setX c (wordOf v (highByte (s.x c))) := if_pos hc

theorem State.setX8_high (hc : 4 ≤ c.toNat) (v : Byte) :
    s.setX8 c v = s.setX (c - 4) (wordOf (lowByte (s.x (c - 4))) v) := if_neg (Nat.not_lt.2 hc)

theorem State.x_setX_other {d : RegCode} (h : d ≠ c) (v : Word) : (s.setX c v).x d = s.x d := by
  rw [State.x_setX, if_neg h]

end Machine
end Sys2Proof
end

section
/-! The obligations of spec/10_state.md. -/

namespace Sys2Proof.Machine

/-- Settles O13: `exec` reads neither field (`exec_of_sameInputs`), and a step retires exactly when it decodes
(`step_cases_retire`). -/
theorem retirementCountsAndTraces : Obligations.RetirementCountsAndTraces := by
  refine ⟨fun bs m s h => ?_, fun i s t n l h => ?_, fun s t h => ?_⟩
  · cases launch_next h
    exact ⟨rfl, rfl⟩
  · have hin : SameInputs i s { s with retired := n, trace := l } := ⟨rfl, rfl, rfl, fun _ => rfl⟩
    rw [exec_of_sameInputs hin h, exec_eq_withResults h]
    rfl
  · obtain ⟨hstop, rfl⟩ | ⟨e, -, he, rfl⟩ | ⟨i, r, u, x, hs, hd, ⟨-, -, -, -, hretired, htrace⟩, rfl⟩ := step_cases_retire h
    · exact ⟨fun hrun => absurd hrun.1 (not_running_of_stopped hstop), fun _ => ⟨rfl, rfl⟩⟩
    · exact ⟨fun ⟨_, p, hp⟩ => by simp [he] at hp, fun _ => ⟨rfl, rfl⟩⟩
    · refine ⟨fun _ => ⟨?_, x, ?_⟩, fun hno => absurd ⟨hs, _, hd⟩ hno⟩
      · rw [State.retire_retired, hretired]
      · rw [State.retire_trace, htrace]

/-- Settles O26: each half is one `setX`, and its value is R22's formula. -/
theorem halfRegisterWrite : Obligations.HalfRegisterWrite := by
  refine fun s c d v => ⟨fun hc => ⟨?_, ?_, fun hd => ?_⟩, fun hc => ⟨?_, ?_, fun hd => ?_⟩⟩
  · rw [State.x8_low hc, toNat_lowByte]
  · rw [State.setX8_low hc, State.x_setX_same, wordOf_highByte_eq_or]
  · rw [State.setX8_low hc, State.x_setX_other hd]
  · rw [State.x8_high hc, toNat_highByte]
  · rw [State.setX8_high hc, State.x_setX_same]
    exact wordOf_lowByte_eq_or _ v
  · rw [State.setX8_high hc, State.x_setX_other hd]

/-- Settles O33: the old flags are no input of ADD, SUB and CMP (`SameInputs`), and no other form writes them. -/
theorem onlyArithmeticWritesFlags : Obligations.OnlyArithmeticWritesFlags := by
  refine fun i s t h => ⟨fun harith f => ?_, fun hother => ?_⟩
  · have hw : writesFlags i = true := (writesFlags_eq_true_iff i).2 harith
    have hin : SameInputs i s { s with flags := f } := ⟨rfl, rfl, rfl, by simp [hw]⟩
    rw [exec_of_sameInputs hin h, exec_eq_withResults h]
    rfl
  · have hw : writesFlags i = false := by
      rw [Bool.eq_false_iff, ne_eq, writesFlags_eq_true_iff]
      simpa using hother
    exact exec_flags_of_not_writesFlags hw h

/-- Settles O49, by induction on the run. -/
theorem streamAndModeAreFixed : Obligations.StreamAndModeAreFixed := by
  intro s t h
  induction h with
  | refl => exact ⟨rfl, rfl⟩
  | tail _ last ih =>
    obtain ⟨hstream, hmode⟩ := step_keeps_stream_mode last
    exact ⟨hstream.trans ih.1, hmode.trans ih.2⟩

end Sys2Proof.Machine
end

section
/-! The bytes of a memory write, and the memory after any instruction: at most one `memWrite`, at the effective address of
the operand that `writtenOperand` names. -/

namespace Sys2Proof.Machine

theorem word_eq_add_one_iff {a b : Word} : b = a + 1 ↔ b.toNat = (a.toNat + 1) % 65536 := by
  rw [← BitVec.toNat_inj, BitVec.toNat_add]
  rfl

/-- Every byte after a word write: the low byte at `a`, the high byte at the next address (R53, R54). -/
theorem State.memByte_memWrite_word {s : State} (h : s.mem.wf) (a b : Word) (v : Word) :
    (s.memWrite .word a v).memByte b =
      if b = a then lowByte v else if b = a + 1 then highByte v else s.memByte b := by
  rw [State.memWrite, State.memByte_setMemByte (State.wf_setMemByte h _ _), State.memByte_setMemByte h]
  by_cases hb : b = a <;> simp [hb]

variable {s t : State} {w : Width} {dst src : Operand} {fin : Word}

theorem State.writeOp_mem {v : BitVec w.bits} (h : s.writeOp w dst v = .next t) :
    t.mem = s.mem ∨ ∃ a v, s.ea dst = some a ∧ t.mem = (s.memWrite w a v).mem := by
  obtain ⟨u, c, -, rfl⟩ | ⟨a, ha, rfl⟩ := State.writeOp_next h
  · exact .inl (s.writeReg_mem w c v)
  · exact .inr ⟨a, v, ha, rfl⟩

theorem movOp_mem (h : movOp w dst src fin s = .next t) :
    t.mem = s.mem ∨ ∃ a v, s.ea dst = some a ∧ t.mem = (s.memWrite w a v).mem := by
  obtain ⟨u, hu, rfl⟩ := movOp_next h
  exact State.writeOp_mem (t := u) hu

theorem aluWrite_mem {r : AluResult w.bits} (h : aluWrite w dst r fin s = .next t) :
    t.mem = s.mem ∨ ∃ a v, s.ea dst = some a ∧ t.mem = (s.memWrite w a v).mem := by
  obtain ⟨u, hu, rfl⟩ := aluWrite_next h
  exact State.writeOp_mem (t := u) hu

/-- The memory after an instruction: what it was, or one write at the address of the operand the instruction writes. -/
theorem exec_mem {i : Instr} (h : exec i s = .next t) :
    t.mem = s.mem ∨ ∃ w dst, i.width = some w ∧ writtenOperand i = some dst ∧
      ∃ a v, s.ea dst = some a ∧ t.mem = (s.memWrite w a v).mem := by
  cases i with
  | movRmReg | movRmImm | movRegImm | movAccMem | movMemAcc =>
    exact Or.imp_right (fun hmem => ⟨_, _, rfl, rfl, hmem⟩) (movOp_mem h)
  | addRmReg | addRmImm | addAccImm | subRmReg | subRmImm | subAccImm =>
    exact Or.imp_right (fun hmem => ⟨_, _, rfl, rfl, hmem⟩) (aluWrite_mem h)
  | _ =>
    cases h
    exact .inl rfl

theorem writtenOperand_eq_some {i : Instr} (h : writtenOperand i = some dst) :
    (i.op = .mov ∨ i.op = .add ∨ i.op = .sub) ∧ ∃ src, i.operands = some (dst, src) := by
  unfold writtenOperand at h
  cases hop : i.op with
  | mov | add | sub => simpa [hop] using h
  | cmp | jcc | loopk => simp [hop] at h

/-- In DECODE_ONLY mode no step changes memory (R97). -/
theorem step_mem_of_decodeOnly (hm : s.mode = .decodeOnly) (h : step s = .next t) : t.mem = s.mem := by
  obtain ⟨-, rfl⟩ | ⟨e, -, -, rfl⟩ | ⟨i, r, -, -, -, rfl⟩ | ⟨i, r, u, -, -, he, -⟩ | ⟨i, r, c, -, -, he, -⟩ := step_cases h
  · rfl
  · rfl
  · rfl
  · cases hm.symm.trans he
  · cases hm.symm.trans he

end Sys2Proof.Machine
end

section
/-! The obligations of spec/20_memory.md. -/

namespace Sys2Proof.Machine

/-- Settles O28: a word write is two byte writes at different addresses. -/
theorem memoryWriteRule : Obligations.MemoryWriteRule := by
  refine fun s a b v x hm => ⟨State.memByte_setMemByte hm a b v, ?_⟩
  rw [State.memByte_memWrite_word hm, ← toNat_lowByte, ← toNat_highByte, apply_ite BitVec.toNat, apply_ite BitVec.toNat]
  simp only [word_eq_add_one_iff]

/-- Settles O43: an instruction writes at most the operand `writtenOperand` names (`exec_mem`). -/
theorem onlyMemoryDestinationsModifyMemory : Obligations.OnlyMemoryDestinationsModifyMemory := by
  refine ⟨fun i s t h hne => ?_, fun s t => step_mem_of_decodeOnly⟩
  obtain ⟨w, dst, -, hdst, a, v, ha, -⟩ := (exec_mem h).resolve_left hne
  obtain ⟨hop, src, hsrc⟩ := writtenOperand_eq_some hdst
  exact ⟨hop, dst, src, a, hsrc, ha⟩

/-- Settles O27: `b` is the address of the high byte. -/
theorem memoryReadRule : Obligations.MemoryReadRule := by
  intro s a b hb
  obtain rfl := word_eq_add_one_iff.2 hb
  exact ⟨rfl, toNat_wordOf _ _⟩

end Sys2Proof.Machine
end

section
/-! What each part of the decoder accepts (spec/30_encoding.md R76 to R87), as an equivalence: the value it gives, and the bytes
it read as the encoding of that value. -/

namespace Sys2Proof

/-! ## One step after another -/

theorem map_eq_ok_iff {α β : Type} {x : Decoded α} {f : α → β} {b : β} {r : List Byte} :
    x.map (Prod.map f id) = .ok (b, r) ↔ ∃ a, x = .ok (a, r) ∧ f a = b := by
  rcases x with e | ⟨a, r'⟩
  · simp [Except.map]
  · simp [Except.map, and_comm]

theorem bind_eq_ok_iff {α β : Type} {x : Decoded α} {f : α × List Byte → Decoded β} {p : β × List Byte} :
    x.bind f = .ok p ↔ ∃ a r, x = .ok (a, r) ∧ f (a, r) = .ok p := by
  rcases x with e | ⟨a, r⟩ <;> simp [Except.bind]

theorem nextByte_eq_ok_iff {bs r : List Byte} {b : Byte} : nextByte bs = .ok (b, r) ↔ bs = b :: r :=
  ⟨nextByte_ok, fun h => h ▸ rfl⟩

theorem wordBytes_wordOf (lo hi : Byte) : wordBytes (wordOf lo hi) = [lo, hi] := by simp [wordBytes]

theorem nextWord_eq_ok_iff {bs r : List Byte} {v : Word} : nextWord bs = .ok (v, r) ↔ bs = wordBytes v ++ r :=
  ⟨nextWord_ok, fun h => h ▸ nextWord_wordBytes v r⟩

/-! ## Immediates -/

theorem decodeImm_one (bs : List Byte) : decodeImm 1 bs = (nextByte bs).map (Prod.map .imm8 id) := by
  unfold decodeImm
  cases nextByte bs <;> rfl

theorem decodeImm_two (bs : List Byte) : decodeImm 2 bs = (nextWord bs).map (Prod.map .imm16 id) := by
  unfold decodeImm
  cases nextWord bs <;> rfl

theorem Width.bytes_eq (w : Width) : w.bytes = 1 ∨ w.bytes = 2 := by cases w <;> simp [Width.bytes]

theorem groupImmBytes_eq (s : Bool) (w : Width) : groupImmBytes s w = 1 ∨ groupImmBytes s w = 2 := by
  cases s <;> cases w <;> simp [groupImmBytes]

theorem Imm.fits_iff {v : Imm} {w : Width} : v.fits w = true ↔ v.encode.length = w.bytes := by
  refine ⟨Imm.encode_length_of_fits, fun h => ?_⟩
  cases v <;> cases w <;> simp_all [Imm.fits, Imm.encode, Width.bytes]

theorem Imm.fitsGroup_iff {v : Imm} {s : Bool} {w : Width} :
    v.fitsGroup s w = true ↔ v.encode.length = groupImmBytes s w := by
  refine ⟨Imm.encode_length_of_fitsGroup, fun h => ?_⟩
  cases v <;> cases w <;> cases s <;> simp_all [Imm.fitsGroup, Imm.encode, groupImmBytes]

theorem decodeImm_eq_ok_iff {n : Nat} (hn : n = 1 ∨ n = 2) {bs r : List Byte} {v : Imm} :
    decodeImm n bs = .ok (v, r) ↔ v.encode.length = n ∧ bs = v.encode ++ r := by
  obtain rfl | rfl := hn
  · rw [decodeImm_one, map_eq_ok_iff]
    cases v <;> simp [nextByte_eq_ok_iff, Imm.encode]
  · rw [decodeImm_two, map_eq_ok_iff]
    cases v <;> simp [nextWord_eq_ok_iff, Imm.encode]

/-! ## The r/m operand, by its mod field (R76 to R80) -/

theorem decodeRm_ind {rm : BitVec 3} (h : rm ≠ 6) (bs : List Byte) :
    decodeRm 0 rm bs = .ok (.ind (.ofCode rm), bs) := if_neg h

theorem decodeRm_direct (bs : List Byte) : decodeRm 0 6 bs = (nextWord bs).map (Prod.map .direct id) := by
  change (match nextWord bs with | .ok (a, r) => _ | .error e => _) = _
  cases nextWord bs <;> rfl

theorem decodeRm_ind8 (rm : BitVec 3) (bs : List Byte) :
    decodeRm 1 rm bs = (nextByte bs).map (Prod.map (.ind8 (.ofCode rm)) id) := by
  cases bs <;> rfl

theorem decodeRm_ind16 (rm : BitVec 3) (bs : List Byte) :
    decodeRm 2 rm bs = (nextWord bs).map (Prod.map (.ind16 (.ofCode rm)) id) := by
  unfold decodeRm
  cases nextWord bs <;> rfl

theorem RmOperand.wf_ind_ofCode {rm : BitVec 3} (h : rm ≠ 6) : (RmOperand.ind (.ofCode rm)).wf = true := by
  revert rm; decide

theorem mod_cases (m : BitVec 2) : m = 0 ∨ m = 1 ∨ m = 2 ∨ m = 3 := by
  revert m; decide

/-- What the decoder accepts as an r/m operand is encodable, with any reg field, to the bytes it was read from. -/
theorem decodeRm_eq_ok {m : BitVec 2} {rm : BitVec 3} {bs r : List Byte} {o : RmOperand}
    (h : decodeRm m rm bs = .ok (o, r)) : o.wf = true ∧ ∀ reg, modRm m reg rm :: bs = o.encode reg ++ r := by
  obtain rfl | rfl | rfl | rfl := mod_cases m
  · by_cases hrm : rm = 6
    · subst hrm
      rw [decodeRm_direct, map_eq_ok_iff] at h
      obtain ⟨a, ha, rfl⟩ := h
      obtain rfl := nextWord_ok ha
      exact ⟨rfl, fun reg => rfl⟩
    · rw [decodeRm_ind hrm] at h
      cases h
      exact ⟨RmOperand.wf_ind_ofCode hrm, fun reg => by simp [RmOperand.encode]⟩
  · rw [decodeRm_ind8, map_eq_ok_iff] at h
    obtain ⟨d, hd, rfl⟩ := h
    obtain rfl := nextByte_ok hd
    exact ⟨rfl, fun reg => by simp [RmOperand.encode]⟩
  · rw [decodeRm_ind16, map_eq_ok_iff] at h
    obtain ⟨d, hd, rfl⟩ := h
    obtain rfl := nextWord_ok hd
    exact ⟨rfl, fun reg => by simp [RmOperand.encode]⟩
  · cases h
    exact ⟨rfl, fun reg => rfl⟩

/-- The r/m operand and its modrm byte `b1`, in both directions. -/
theorem decodeRm_eq_ok_iff {b1 : Byte} {bs r : List Byte} {rm : RmOperand} :
    decodeRm (fieldMod b1) (fieldRm b1) bs = .ok (rm, r) ↔
      rm.wf = true ∧ b1 :: bs = rm.encode (fieldReg b1) ++ r := by
  constructor
  · intro h
    obtain ⟨hwf, henc⟩ := decodeRm_eq_ok h
    exact ⟨hwf, by rw [← henc, modRm_fields]⟩
  · rintro ⟨hwf, heq⟩
    obtain ⟨b1', ds, henc, -, hdec⟩ := decodeRm_encode hwf (fieldReg b1) r
    obtain ⟨rfl, rfl⟩ := List.cons.inj (heq.trans henc)
    exact hdec

/-! ## The formats (R83, R86) -/

variable {b0 b1 : Byte} {bs r : List Byte} {i : Instr}

theorem decodeRmReg_cons (mk : Dir → Width → RegCode → RmOperand → Instr) (b0 b1 : Byte) (bs : List Byte) :
    decodeRmReg mk b0 (b1 :: bs) = (decodeRm (fieldMod b1) (fieldRm b1) bs).map
      (Prod.map (mk (fieldD b0) (fieldW b0) (fieldReg b1)) id) := by
  rw [decodeRmReg]
  cases decodeRm (fieldMod b1) (fieldRm b1) bs <;> rfl

@[simp] theorem RmOperand.encode_ne_nil (rm : RmOperand) (reg : BitVec 3) : rm.encode reg ≠ [] := by
  cases rm <;> simp [RmOperand.encode]

theorem fieldReg_of_encode {rm : RmOperand} {reg : BitVec 3} (h : b1 :: bs = rm.encode reg ++ r) : fieldReg b1 = reg := by
  obtain ⟨b1', ds, henc, hreg, -⟩ := rm.encode_head reg
  rw [henc] at h
  rw [(List.cons.inj h).1, hreg]

theorem decodeRmReg_eq_ok_iff {mk : Dir → Width → RegCode → RmOperand → Instr} :
    decodeRmReg mk b0 bs = .ok (i, r) ↔
      ∃ reg rm, rm.wf = true ∧ mk (fieldD b0) (fieldW b0) reg rm = i ∧ bs = rm.encode reg ++ r := by
  cases bs with
  | nil => simp [decodeRmReg]
  | cons b1 bs =>
    rw [decodeRmReg_cons, map_eq_ok_iff]
    constructor
    · rintro ⟨rm, h, rfl⟩
      obtain ⟨hwf, heq⟩ := decodeRm_eq_ok_iff.1 h
      exact ⟨fieldReg b1, rm, hwf, rfl, heq⟩
    · rintro ⟨reg, rm, hwf, rfl, heq⟩
      obtain rfl := fieldReg_of_encode heq
      exact ⟨rm, decodeRm_eq_ok_iff.2 ⟨hwf, heq⟩, rfl⟩

theorem decodeRmImm_eq (mk : RmOperand → Imm → Instr) (b1 : Byte) (n : Nat) (bs : List Byte) :
    decodeRmImm mk b1 n bs = (decodeRm (fieldMod b1) (fieldRm b1) bs).bind
      fun p => (decodeImm n p.2).map (Prod.map (mk p.1) id) := by
  unfold decodeRmImm
  rcases decodeRm (fieldMod b1) (fieldRm b1) bs with e | ⟨rm, r⟩
  · rfl
  · change (match decodeImm n r with | .ok (v, r') => _ | .error e => _) = (decodeImm n r).map _
    cases decodeImm n r <;> rfl

theorem decodeRmImm_eq_ok_iff {mk : RmOperand → Imm → Instr} {n : Nat} (hn : n = 1 ∨ n = 2) :
    decodeRmImm mk b1 n bs = .ok (i, r) ↔
      ∃ rm v, rm.wf = true ∧ v.encode.length = n ∧ mk rm v = i ∧ b1 :: bs = rm.encode (fieldReg b1) ++ v.encode ++ r := by
  simp only [decodeRmImm_eq, bind_eq_ok_iff, map_eq_ok_iff, decodeRm_eq_ok_iff, decodeImm_eq_ok_iff hn, List.append_assoc]
  constructor
  · rintro ⟨rm, r', ⟨hwf, heq⟩, v, ⟨hv, rfl⟩, rfl⟩
    exact ⟨rm, v, hwf, hv, rfl, heq⟩
  · rintro ⟨rm, v, hwf, hv, rfl, heq⟩
    exact ⟨rm, v.encode ++ r, ⟨hwf, heq⟩, v, ⟨hv, rfl⟩, rfl⟩

theorem decodeImmOnly_eq_ok_iff {mk : Imm → Instr} {w : Width} :
    decodeImmOnly mk w bs = .ok (i, r) ↔ ∃ v, v.fits w = true ∧ mk v = i ∧ bs = v.encode ++ r := by
  have heq : decodeImmOnly mk w bs = (decodeImm w.bytes bs).map (Prod.map mk id) := by
    unfold decodeImmOnly
    cases decodeImm w.bytes bs <;> rfl
  simp only [heq, map_eq_ok_iff, decodeImm_eq_ok_iff w.bytes_eq, ← Imm.fits_iff, and_right_comm, and_assoc]

theorem decodeAccMem_eq_ok_iff {mk : Width → Word → Instr} :
    decodeAccMem mk b0 bs = .ok (i, r) ↔ ∃ a, bs = wordBytes a ++ r ∧ mk (fieldW b0) a = i := by
  have heq : decodeAccMem mk b0 bs = (nextWord bs).map (Prod.map (mk (fieldW b0)) id) := by
    unfold decodeAccMem
    cases nextWord bs <;> rfl
  simp only [heq, map_eq_ok_iff, nextWord_eq_ok_iff]

theorem decodeRel_eq_ok_iff {mk : Byte → Instr} :
    decodeRel mk bs = .ok (i, r) ↔ ∃ rel, bs = rel :: r ∧ mk rel = i := by
  have heq : decodeRel mk bs = (nextByte bs).map (Prod.map mk id) := by
    unfold decodeRel
    cases nextByte bs <;> rfl
  simp only [heq, map_eq_ok_iff, nextByte_eq_ok_iff]

theorem decodeMovRmImm_eq_ok_iff :
    decodeMovRmImm b0 bs = .ok (i, r) ↔ ∃ rm v, rm.wf = true ∧ v.fits (fieldW b0) = true ∧
      .movRmImm (fieldW b0) rm v = i ∧ bs = rm.encode 0 ++ v.encode ++ r := by
  cases bs with
  | nil => simp [decodeMovRmImm]
  | cons b1 bs =>
    rw [decodeMovRmImm]
    split
    case isTrue hreg => simp only [decodeRmImm_eq_ok_iff (fieldW b0).bytes_eq, Imm.fits_iff, hreg]
    case isFalse hreg =>
      constructor
      · rintro ⟨⟩
      rintro ⟨rm, v, -, -, -, heq⟩
      rw [List.append_assoc] at heq
      exact absurd (fieldReg_of_encode heq) hreg

theorem decodeGroup_eq_ok_iff :
    decodeGroup b0 bs = .ok (i, r) ↔ ∃ ext mk rm v, groupOp ext = some mk ∧ rm.wf = true ∧
      v.fitsGroup (fieldS b0) (fieldW b0) = true ∧ mk (fieldS b0) (fieldW b0) rm v = i ∧
      bs = rm.encode ext ++ v.encode ++ r := by
  cases bs with
  | nil => simp [decodeGroup]
  | cons b1 bs =>
    rw [decodeGroup]
    split
    case h_1 mk hmk =>
      simp only [decodeRmImm_eq_ok_iff (groupImmBytes_eq _ _), ← Imm.fitsGroup_iff]
      constructor
      · rintro ⟨rm, v, hwf, hv, rfl, heq⟩
        exact ⟨fieldReg b1, mk, rm, v, hmk, hwf, hv, rfl, heq⟩
      · rintro ⟨ext, mk', rm, v, hmk', hwf, hv, rfl, heq⟩
        obtain rfl := fieldReg_of_encode (heq.trans (List.append_assoc _ _ _))
        obtain rfl := Option.some.inj (hmk.symm.trans hmk')
        exact ⟨rm, v, hwf, hv, rfl, heq⟩
    case h_2 hmk =>
      constructor
      · rintro ⟨⟩
      rintro ⟨ext, mk, rm, v, hmk', -, -, -, heq⟩
      obtain rfl := fieldReg_of_encode (heq.trans (List.append_assoc _ _ _))
      cases hmk.symm.trans hmk'

end Sys2Proof
end

section
/-! The decoder and the encoder are inverse (`decode_eq_ok_iff`), and so the decoder consumes what R83 gives the instruction
(`length_of_decode`). -/

namespace Sys2Proof

variable {b0 b1 c : Byte} {bs r : List Byte} {i : Instr}

/-! ## The first byte is its fields (R71, R84) -/

theorem opcodeDW_of_and {v : Byte} (h : b0 &&& 0xFC = v) : opcodeDW (v.extractLsb' 2 6) (fieldD b0) (fieldW b0) = b0 := by
  subst h; revert b0; decide

theorem opcodeSW_of_and (h : b0 &&& 0xFC = 0x80) : opcodeSW 0b100000 (fieldS b0) (fieldW b0) = b0 := by
  revert b0; decide

theorem opcodeW_of_and {v : Byte} (h : b0 &&& 0xFE = v) : opcodeW (v.extractLsb' 1 7) (fieldW b0) = b0 := by
  subst h; revert b0; decide

theorem modRm_of_and (h : b1 &&& 0xC0 = 0xC0) : modRm 3 (fieldReg b1) (fieldRm b1) = b1 := by
  revert b1; decide

theorem opcodeRegImm_of_and (h : b0 &&& 0xF0 = 0xB0) : 0b1011#4 ++ (fieldWRegImm b0).bit ++ fieldRegImm b0 = b0 := by
  revert b0; decide

theorem opcodeJcc_of_and (h : b0 &&& 0xF0 = 0x70) : 0x7#4 ++ b0.extractLsb' 0 4 = b0 := by
  revert b0; decide

theorem opcodeLoop_of_and (h : b0 &&& 0xFC = 0xE0) : 0b111000#6 ++ b0.extractLsb' 0 2 = b0 := by
  revert b0; decide

theorem bitVec_four_cases (cc : BitVec 4) :
    cc = 0 ∨ cc = 1 ∨ cc = 2 ∨ cc = 3 ∨ cc = 4 ∨ cc = 5 ∨ cc = 6 ∨ cc = 7 ∨ cc = 8 ∨ cc = 9 ∨ cc = 10 ∨ cc = 11 ∨
      cc = 12 ∨ cc = 13 ∨ cc = 14 ∨ cc = 15 := by
  revert cc; decide

theorem jccOf_encode (cc : BitVec 4) (rel : Byte) :
    (jccOf cc rel).wf = true ∧ encode (jccOf cc rel) = [0x7#4 ++ cc, rel] := by
  obtain rfl | rfl | rfl | rfl | rfl | rfl | rfl | rfl | rfl | rfl | rfl | rfl | rfl | rfl | rfl | rfl :=
    bitVec_four_cases cc <;> exact ⟨rfl, rfl⟩

theorem loopOf_encode (k : BitVec 2) (rel : Byte) :
    (loopOf k rel).wf = true ∧ encode (loopOf k rel) = [0b111000#6 ++ k, rel] := by
  obtain rfl | rfl | rfl | rfl := mod_cases k <;> exact ⟨rfl, rfl⟩

/-- The group's three operations, each with its extension (R86). -/
theorem groupOp_eq_some {ext : BitVec 3} {mk : Bool → Width → RmOperand → Imm → Instr} (h : groupOp ext = some mk) :
    (ext = 0 ∧ mk = .addRmImm) ∨ (ext = 5 ∧ mk = .subRmImm) ∨ (ext = 7 ∧ mk = .cmpRmImm) := by
  obtain rfl | rfl | rfl | rfl | rfl | rfl | rfl | rfl := regCode_cases ext <;> simp_all [groupOp]

theorem groupOp_encode {ext : BitVec 3} {mk : Bool → Width → RmOperand → Imm → Instr} (h : groupOp ext = some mk)
    (s : Bool) (w : Width) (rm : RmOperand) (v : Imm) :
    (mk s w rm v).wf = (rm.wf && v.fitsGroup s w) ∧
      encode (mk s w rm v) = opcodeSW 0b100000 s w :: (rm.encode ext ++ v.encode) := by
  obtain ⟨rfl, rfl⟩ | ⟨rfl, rfl⟩ | ⟨rfl, rfl⟩ := groupOp_eq_some h <;> exact ⟨rfl, rfl⟩

/-! ## Decoded bytes are an encoding -/

/-- Format RM: an operation whose encoding is the opcode `o` with d and w, and the modrm bytes. -/
theorem encode_of_decodeRmReg {o : BitVec 6} {mk : Dir → Width → RegCode → RmOperand → Instr}
    (h : decodeRmReg mk b0 bs = .ok (i, r)) (hb : opcodeDW o (fieldD b0) (fieldW b0) = b0)
    (hmk : ∀ d w reg rm, (mk d w reg rm).wf = rm.wf ∧ encode (mk d w reg rm) = opcodeDW o d w :: rm.encode reg) :
    i.wf = true ∧ b0 :: bs = encode i ++ r := by
  obtain ⟨reg, rm, hwf, rfl, rfl⟩ := decodeRmReg_eq_ok_iff.1 h
  obtain ⟨hwf', henc⟩ := hmk (fieldD b0) (fieldW b0) reg rm
  exact ⟨hwf'.trans hwf, by rw [henc, hb, List.cons_append]⟩

/-- Formats RI and AI. -/
theorem encode_of_decodeImmOnly {w : Width} {mk : Imm → Instr} (h : decodeImmOnly mk w bs = .ok (i, r)) (hb : c = b0)
    (hmk : ∀ v, (mk v).wf = v.fits w ∧ encode (mk v) = c :: v.encode) : i.wf = true ∧ b0 :: bs = encode i ++ r := by
  obtain ⟨v, hv, rfl, rfl⟩ := decodeImmOnly_eq_ok_iff.1 h
  obtain ⟨hwf, henc⟩ := hmk v
  exact ⟨hwf.trans hv, by rw [henc, hb, List.cons_append]⟩

/-- Format AM. -/
theorem encode_of_decodeAccMem {mk : Width → Word → Instr} (h : decodeAccMem mk b0 bs = .ok (i, r)) (hb : c = b0)
    (hmk : ∀ a, (mk (fieldW b0) a).wf = true ∧ encode (mk (fieldW b0) a) = c :: wordBytes a) :
    i.wf = true ∧ b0 :: bs = encode i ++ r := by
  obtain ⟨a, rfl, rfl⟩ := decodeAccMem_eq_ok_iff.1 h
  obtain ⟨hwf, henc⟩ := hmk a
  exact ⟨hwf, by rw [henc, hb, List.cons_append]⟩

/-- Format J8. -/
theorem encode_of_decodeRel {mk : Byte → Instr} (h : decodeRel mk bs = .ok (i, r)) (hb : c = b0)
    (hmk : ∀ rel, (mk rel).wf = true ∧ encode (mk rel) = [c, rel]) : i.wf = true ∧ b0 :: bs = encode i ++ r := by
  obtain ⟨rel, rfl, rfl⟩ := decodeRel_eq_ok_iff.1 h
  obtain ⟨hwf, henc⟩ := hmk rel
  exact ⟨hwf, by rw [henc, hb]; rfl⟩

theorem encode_of_decodeMovRmImm (h : decodeMovRmImm b0 bs = .ok (i, r)) (hb : opcodeW 0b1100011 (fieldW b0) = b0) :
    i.wf = true ∧ b0 :: bs = encode i ++ r := by
  obtain ⟨rm, v, hwf, hv, rfl, rfl⟩ := decodeMovRmImm_eq_ok_iff.1 h
  exact ⟨by rw [Instr.wf, hwf, hv]; rfl, by rw [encode, hb, List.cons_append]⟩

theorem encode_of_decodeGroup (h : decodeGroup b0 bs = .ok (i, r))
    (hb : opcodeSW 0b100000 (fieldS b0) (fieldW b0) = b0) : i.wf = true ∧ b0 :: bs = encode i ++ r := by
  obtain ⟨ext, mk, rm, v, hmk, hwf, hv, rfl, rfl⟩ := decodeGroup_eq_ok_iff.1 h
  obtain ⟨hwf', henc⟩ := groupOp_encode hmk (fieldS b0) (fieldW b0) rm v
  exact ⟨by rw [hwf', hwf, hv]; rfl, by rw [henc, hb, List.cons_append]⟩

/-- Whatever the decoder accepts is encodable, to the bytes it was read from. -/
theorem encode_of_decode (h : decode bs = .ok (i, r)) : i.wf = true ∧ bs = encode i ++ r := by
  cases bs with
  | nil => cases h
  | cons b0 bs =>
    rw [decode_cons] at h
    obtain ⟨hb, hd⟩ | ⟨hb, hd⟩ | ⟨hb, hd⟩ | ⟨hb, hd⟩ | ⟨hb, hd⟩ | ⟨hb, hd⟩ | ⟨hb, hd⟩ | ⟨hb, hd⟩ | ⟨hb, hd⟩ | ⟨hb, hd⟩ |
      ⟨hb, hd⟩ | ⟨hb, hd⟩ | ⟨hb, hd⟩ | ⟨hb, hd⟩ | ⟨-, hd⟩ := decodeForm_cases b0 bs <;> rw [hd] at h
    · exact encode_of_decodeRmReg h (opcodeDW_of_and hb) fun _ _ _ _ => ⟨rfl, rfl⟩
    · exact encode_of_decodeRmReg h (opcodeDW_of_and hb) fun _ _ _ _ => ⟨rfl, rfl⟩
    · exact encode_of_decodeRmReg h (opcodeDW_of_and hb) fun _ _ _ _ => ⟨rfl, rfl⟩
    · exact encode_of_decodeRmReg h (opcodeDW_of_and hb) fun _ _ _ _ => ⟨rfl, rfl⟩
    · exact encode_of_decodeMovRmImm h (opcodeW_of_and (v := 0xC6) hb)
    · exact encode_of_decodeGroup h (opcodeSW_of_and hb)
    · exact encode_of_decodeImmOnly h (opcodeRegImm_of_and hb) fun _ => ⟨rfl, rfl⟩
    · exact encode_of_decodeAccMem h (opcodeW_of_and hb) fun _ => ⟨rfl, rfl⟩
    · exact encode_of_decodeAccMem h (opcodeW_of_and hb) fun _ => ⟨rfl, rfl⟩
    · exact encode_of_decodeImmOnly h (opcodeW_of_and hb) fun _ => ⟨rfl, rfl⟩
    · exact encode_of_decodeImmOnly h (opcodeW_of_and hb) fun _ => ⟨rfl, rfl⟩
    · exact encode_of_decodeImmOnly h (opcodeW_of_and hb) fun _ => ⟨rfl, rfl⟩
    · exact encode_of_decodeRel h (opcodeJcc_of_and hb) (jccOf_encode _)
    · exact encode_of_decodeRel h (opcodeLoop_of_and hb) (loopOf_encode _)
    · cases h

/-! ## An encoding is decoded -/

@[simp] theorem fieldD_opcodeDW (o : BitVec 6) (d : Dir) (w : Width) : fieldD (opcodeDW o d w) = d := by
  cases d <;> cases w <;> revert o <;> decide

@[simp] theorem fieldW_opcodeDW (o : BitVec 6) (d : Dir) (w : Width) : fieldW (opcodeDW o d w) = w := by
  cases d <;> cases w <;> revert o <;> decide

@[simp] theorem fieldS_opcodeSW (o : BitVec 6) (s : Bool) (w : Width) : fieldS (opcodeSW o s w) = s := by
  cases s <;> cases w <;> revert o <;> decide

@[simp] theorem fieldW_opcodeSW (o : BitVec 6) (s : Bool) (w : Width) : fieldW (opcodeSW o s w) = w := by
  cases s <;> cases w <;> revert o <;> decide

@[simp] theorem fieldW_opcodeW (o : BitVec 7) (w : Width) : fieldW (opcodeW o w) = w := by
  cases w <;> revert o <;> decide

theorem decodeRmReg_encode (mk : Dir → Width → RegCode → RmOperand → Instr) (o : BitVec 6) (d : Dir) (w : Width)
    (reg : RegCode) {rm : RmOperand} (h : rm.wf = true) (r : List Byte) :
    decodeRmReg mk (opcodeDW o d w) (rm.encode reg ++ r) = .ok (mk d w reg rm, r) :=
  decodeRmReg_eq_ok_iff.2 ⟨reg, rm, h, by simp, rfl⟩

theorem decodeMovRmImm_encode (o : BitVec 7) {w : Width} {rm : RmOperand} {v : Imm} (h : (rm.wf && v.fits w) = true)
    (r : List Byte) :
    decodeMovRmImm (opcodeW o w) (rm.encode 0 ++ v.encode ++ r) = .ok (.movRmImm w rm v, r) := by
  obtain ⟨hrm, hv⟩ := Bool.and_eq_true_iff.1 h
  exact decodeMovRmImm_eq_ok_iff.2 ⟨rm, v, hrm, by simpa using hv, by simp, rfl⟩

theorem decodeGroup_encode {ext : BitVec 3} {mk : Bool → Width → RmOperand → Imm → Instr} (hmk : groupOp ext = some mk)
    (o : BitVec 6) {s : Bool} {w : Width} {rm : RmOperand} {v : Imm} (h : (rm.wf && v.fitsGroup s w) = true)
    (r : List Byte) :
    decodeGroup (opcodeSW o s w) (rm.encode ext ++ v.encode ++ r) = .ok (mk s w rm v, r) := by
  obtain ⟨hrm, hv⟩ := Bool.and_eq_true_iff.1 h
  exact decodeGroup_eq_ok_iff.2 ⟨ext, mk, rm, v, hmk, hrm, by simpa using hv, by simp, rfl⟩

theorem decodeImmOnly_encode (mk : Imm → Instr) {w : Width} {v : Imm} (h : v.fits w = true) (r : List Byte) :
    decodeImmOnly mk w (v.encode ++ r) = .ok (mk v, r) :=
  decodeImmOnly_eq_ok_iff.2 ⟨v, h, rfl, rfl⟩

theorem decodeAccMem_encode (mk : Width → Word → Instr) (o : BitVec 7) (w : Width) (a : Word) (r : List Byte) :
    decodeAccMem mk (opcodeW o w) (wordBytes a ++ r) = .ok (mk w a, r) :=
  decodeAccMem_eq_ok_iff.2 ⟨a, rfl, by simp⟩

/-- The decoder reads back every encodable instruction, and leaves the bytes after it. -/
theorem decode_encode (h : i.wf = true) (r : List Byte) : decode (encode i ++ r) = .ok (i, r) := by
  cases i with
  | movRmReg d w reg rm => cases d <;> cases w <;> exact decodeRmReg_encode .movRmReg 0b100010 _ _ reg h r
  | addRmReg d w reg rm => cases d <;> cases w <;> exact decodeRmReg_encode .addRmReg 0b000000 _ _ reg h r
  | subRmReg d w reg rm => cases d <;> cases w <;> exact decodeRmReg_encode .subRmReg 0b001010 _ _ reg h r
  | cmpRmReg d w reg rm => cases d <;> cases w <;> exact decodeRmReg_encode .cmpRmReg 0b001110 _ _ reg h r
  | movRmImm w rm v => cases w <;> exact decodeMovRmImm_encode 0b1100011 h r
  | addRmImm s w rm v => cases s <;> cases w <;> exact decodeGroup_encode (ext := 0) rfl 0b100000 h r
  | subRmImm s w rm v => cases s <;> cases w <;> exact decodeGroup_encode (ext := 5) rfl 0b100000 h r
  | cmpRmImm s w rm v => cases s <;> cases w <;> exact decodeGroup_encode (ext := 7) rfl 0b100000 h r
  | movAccMem w a => cases w <;> exact decodeAccMem_encode .movAccMem 0b1010000 _ a r
  | movMemAcc w a => cases w <;> exact decodeAccMem_encode .movMemAcc 0b1010001 _ a r
  | addAccImm w v => cases w <;> exact decodeImmOnly_encode (.addAccImm _) h r
  | subAccImm w v => cases w <;> exact decodeImmOnly_encode (.subAccImm _) h r
  | cmpAccImm w v => cases w <;> exact decodeImmOnly_encode (.cmpAccImm _) h r
  | movRegImm w reg v =>
    cases w <;> obtain rfl | rfl | rfl | rfl | rfl | rfl | rfl | rfl := regCode_cases reg <;>
      exact decodeImmOnly_encode (.movRegImm _ _) h r
  | _ => rfl

theorem decode_eq_ok_iff : decode bs = .ok (i, r) ↔ i.wf = true ∧ bs = encode i ++ r :=
  ⟨encode_of_decode, fun ⟨hwf, hbs⟩ => hbs ▸ decode_encode hwf r⟩

/-- An operation on two registers is read from its two bytes, and written back as them (R93). -/
theorem decode_registerDirect {o : BitVec 6} (mk : Dir → Width → RegCode → RmOperand → Instr)
    (hb : opcodeDW o (fieldD b0) (fieldW b0) = b0) (hmod : b1 &&& 0xC0 = 0xC0) (r : List Byte)
    (hmk : ∀ d w reg rm, (mk d w reg rm).wf = rm.wf ∧ encode (mk d w reg rm) = opcodeDW o d w :: rm.encode reg) :
    ∃ i, decode (b0 :: b1 :: r) = .ok (i, r) ∧ encode i = [b0, b1] := by
  obtain ⟨hwf, henc⟩ := hmk (fieldD b0) (fieldW b0) (fieldReg b1) (.reg (fieldRm b1))
  rw [hb, RmOperand.encode, modRm_of_and hmod] at henc
  exact ⟨_, decode_eq_ok_iff.2 ⟨hwf, by rw [henc]; rfl⟩, henc⟩

/-! ## Lengths (R83, R89) -/

theorem encode_length (h : i.wf = true) : (encode i).length = i.length := by
  cases i with
  | movRmReg d w reg rm => exact Laws.EncodeLength.movRmReg d w reg rm h
  | movRmImm w rm v => exact Laws.EncodeLength.movRmImm w rm v h
  | movRegImm w reg v => exact Laws.EncodeLength.movRegImm w reg v h
  | addRmReg d w reg rm => exact Laws.EncodeLength.addRmReg d w reg rm h
  | addRmImm s w rm v => exact Laws.EncodeLength.addRmImm s w rm v h
  | addAccImm w v => exact Laws.EncodeLength.addAccImm w v h
  | subRmReg d w reg rm => exact Laws.EncodeLength.subRmReg d w reg rm h
  | subRmImm s w rm v => exact Laws.EncodeLength.subRmImm s w rm v h
  | subAccImm w v => exact Laws.EncodeLength.subAccImm w v h
  | cmpRmReg d w reg rm => exact Laws.EncodeLength.cmpRmReg d w reg rm h
  | cmpRmImm s w rm v => exact Laws.EncodeLength.cmpRmImm s w rm v h
  | cmpAccImm w v => exact Laws.EncodeLength.cmpAccImm w v h
  | _ => rfl

theorem length_of_decode (h : decode bs = .ok (i, r)) : bs.length = i.length + r.length := by
  obtain ⟨hwf, rfl⟩ := encode_of_decode h
  rw [List.length_append, encode_length hwf]

theorem RmOperand.displacementBytes_le (rm : RmOperand) : rm.displacementBytes ≤ 2 := by
  cases rm <;> simp [RmOperand.displacementBytes]

theorem Instr.length_bounds (i : Instr) : 2 ≤ i.length ∧ i.length ≤ 6 := by
  have hrm := RmOperand.displacementBytes_le
  cases i with
  | movRmReg d w reg rm | addRmReg d w reg rm | subRmReg d w reg rm | cmpRmReg d w reg rm =>
    have := hrm rm
    simp only [Instr.length]; omega
  | movRmImm w rm v =>
    have := hrm rm
    have := w.bytes_eq
    simp only [Instr.length]; omega
  | addRmImm s w rm v | subRmImm s w rm v | cmpRmImm s w rm v =>
    have := hrm rm
    have := groupImmBytes_eq s w
    simp only [Instr.length]; omega
  | movRegImm w reg v =>
    have := w.bytes_eq
    simp only [Instr.length]; omega
  | addAccImm w v | subAccImm w v | cmpAccImm w v =>
    have := w.bytes_eq
    simp only [Instr.length]; omega
  | _ => simp [Instr.length]

end Sys2Proof
end

section
/-! The step of a decoded instruction, and the values of immediates and effective addresses as numbers. -/

namespace Sys2Proof.Machine

/-! ## The step cycle (R96, R97, R99) -/

variable {s t : State} {i : Instr} {r : List Byte}

theorem step_decodeOnly (hs : s.status = .running) (hm : s.mode = .decodeOnly) (hd : decode s.fetchBytes = .ok (i, r)) :
    step s = .next ((s.setIp (s.endOf i)).retire ⟨s.recordOf i, none⟩) := by
  simp [step, cycle, runDecoded, hs, hm, hd]

theorem step_execute {u : State} (hs : s.status = .running) (hm : s.mode = .execute)
    (hd : decode s.fetchBytes = .ok (i, r)) (hx : exec i s = .next u) :
    step s = .next (u.retire ⟨s.recordOf i, some (effectsOf i s u)⟩) := by
  simp [step, cycle, runDecoded, hs, hm, hd, hx]

/-- A step that decodes `i` retires `i`'s record, in EXECUTE mode from the state that `exec` answers. -/
theorem step_retires (hs : s.status = .running) (hd : decode s.fetchBytes = .ok (i, r)) (h : step s = .next t) :
    ∃ u e, SameControl s u ∧ (s.mode = .execute → exec i s = .next u) ∧ t = u.retire ⟨s.recordOf i, e⟩ := by
  cases hm : s.mode with
  | decodeOnly =>
    rw [step_decodeOnly hs hm hd] at h
    cases h
    exact ⟨s.setIp (s.endOf i), none, ⟨rfl, rfl, rfl, rfl, rfl, rfl⟩, nofun, rfl⟩
  | execute =>
    obtain ⟨u, hu⟩ := exec_next i s
    rw [step_execute hs hm hd hu] at h
    cases h
    exact ⟨u, _, exec_sameControl hu, fun _ => hu, rfl⟩

theorem State.retire_status_ended_iff {x : TraceRecord} (hs : s.status = .running) :
    (s.retire x).status = .ended ↔ s.stream.length ≤ s.ip.toNat := by
  rw [State.retire_status, hs]
  split <;> simp [*]

theorem toNat_endOf (s : State) (i : Instr) : (s.endOf i).toNat = (s.ip.toNat + i.length) % 65536 := by
  simp [State.endOf]

/-- An instruction that decodes at `ip` has all its bytes in the stream (R58). -/
theorem ip_add_length_le (hd : decode s.fetchBytes = .ok (i, r)) : s.ip.toNat + i.length ≤ s.stream.length := by
  have hlen := length_of_decode hd
  have hpos := i.length_bounds
  rw [State.fetchBytes, List.length_drop] at hlen
  omega

theorem length_consumed (hd : decode s.fetchBytes = .ok (i, r)) : (s.consumed i).length = i.length := by
  have hle := ip_add_length_le hd
  rw [State.consumed, State.fetchBytes, List.length_take, List.length_drop]
  omega

/-- In a sound state the end of an instruction does not wrap. -/
theorem State.Sound.toNat_endOf (hsound : s.Sound) (hd : decode s.fetchBytes = .ok (i, r)) :
    (s.endOf i).toNat = s.ip.toNat + i.length := by
  have hle := ip_add_length_le hd
  have hmax : s.stream.length ≤ 65535 := hsound.stream
  rw [Machine.toNat_endOf]
  omega

/-- A step that emits a trace record decoded the instruction it records. -/
theorem decoded_of_trace {x : TraceRecord} (h : step s = .next t) (htrace : t.trace = s.trace ++ [x]) :
    ∃ i r, decode s.fetchBytes = .ok (i, r) ∧ x.record = s.recordOf i := by
  obtain ⟨-, rfl⟩ | ⟨e, -, -, rfl⟩ | ⟨i, r, -, -, hs, hd, -, -⟩ := step_cases_retire h
  · simp at htrace
  · simp [State.raiseDecode] at htrace
  · obtain ⟨u, e, ⟨-, -, -, -, -, htr⟩, -, rfl⟩ := step_retires hs hd h
    rw [State.retire_trace, htr] at htrace
    obtain rfl := List.singleton_inj.1 (List.append_cancel_left htrace)
    exact ⟨i, r, hd, rfl⟩

/-! ## Immediates (R94) -/

theorem toNat_immValue {w : Width} {v : Imm} (h : v.fits w = true) : (immValue w v).toNat = Claims.immNat v := by
  cases w with
  | byte =>
    cases v with
    | imm8 b => exact congrArg BitVec.toNat b.setWidth_eq
    | imm16 b => cases h
  | word =>
    cases v with
    | imm8 b => cases h
    | imm16 b => exact congrArg BitVec.toNat b.setWidth_eq

/-! ## Effective addresses (R77, R80, R81) -/

theorem toNat_sext16 (v : Byte) : (sext16 v).toNat = if v.toNat < 128 then v.toNat else v.toNat + 0xFF00 := by
  revert v; decide

theorem State.toNat_baseValue (s : State) (rm : BitVec 3) :
    (s.baseValue (.ofCode rm)).toNat = Claims.baseSum s rm % 65536 := by
  have single (v : Word) : v.toNat = v.toNat % 65536 := (Nat.mod_eq_of_lt v.isLt).symm
  obtain rfl | rfl | rfl | rfl | rfl | rfl | rfl | rfl := regCode_cases rm
  · exact BitVec.toNat_add s.regs.bx s.regs.si
  · exact BitVec.toNat_add s.regs.bx s.regs.di
  · exact BitVec.toNat_add s.regs.bp s.regs.si
  · exact BitVec.toNat_add s.regs.bp s.regs.di
  · exact single s.regs.si
  · exact single s.regs.di
  · exact single s.regs.bp
  · exact single s.regs.bx

theorem State.toNat_baseValue_add (s : State) (rm : BitVec 3) (disp : Word) :
    (s.baseValue (.ofCode rm) + disp).toNat = (Claims.baseSum s rm + disp.toNat) % 65536 := by
  rw [BitVec.toNat_add, State.toNat_baseValue]
  exact Nat.mod_add_mod _ _ _

end Sys2Proof.Machine
end

section
/-! The obligations of spec/30_encoding.md. -/

namespace Sys2Proof.Machine

/-- Settles O11: the bytes at `ip` decode to `i` (`decode_encode`), and the step is `step_decodeOnly`. -/
theorem decodeOnlyStepOnlyAdvances : Obligations.DecodeOnlyStepOnlyAdvances := by
  intro i s r hwf hs hm hbytes
  have hd : decode s.fetchBytes = .ok (i, r) := hbytes ▸ decode_encode hwf r
  refine ⟨_, step_decodeOnly hs hm hd, rfl, rfl, rfl, toNat_endOf s i, rfl, rfl, rfl, rfl, rfl, ?_⟩
  rw [State.retire_status, State.setIp_status, hs]
  rfl

/-- Settles O12: a step that decodes is a retirement (`step_retires`), which tests the new `ip`. -/
theorem runEndsExactlyOutsideStream : Obligations.RunEndsExactlyOutsideStream := by
  refine ⟨fun bs m s h => ?_, fun s t i r hs hd h => ?_⟩
  · cases launch_next h
    simp
  · obtain ⟨u, e, ⟨hstatus, -, hstream, -⟩, hexec, rfl⟩ := step_retires hs hd h
    refine ⟨?_, fun hm u' hu' => ?_⟩
    · rw [State.retire_status_ended_iff (hstatus.trans hs), State.retire_ip, hstream]
    · cases (hexec hm).symm.trans hu'
      rfl

/-- Settles O18: `decode_registerDirect` for each of the four operations. -/
theorem registerDirectEncodingsRoundTrip : Obligations.RegisterDirectEncodingsRoundTrip := by
  intro b0 b1 r hop hmod
  obtain hb | hb | hb | hb := hop
  · exact decode_registerDirect .movRmReg (opcodeDW_of_and hb) hmod r fun _ _ _ _ => ⟨rfl, rfl⟩
  · exact decode_registerDirect .addRmReg (opcodeDW_of_and hb) hmod r fun _ _ _ _ => ⟨rfl, rfl⟩
  · exact decode_registerDirect .subRmReg (opcodeDW_of_and hb) hmod r fun _ _ _ _ => ⟨rfl, rfl⟩
  · exact decode_registerDirect .cmpRmReg (opcodeDW_of_and hb) hmod r fun _ _ _ _ => ⟨rfl, rfl⟩

/-- Settles O19: decoded bytes are an encoding (`length_of_decode`), and no instruction ends past L (`State.Sound`). -/
theorem decodedLengthIsExact : Obligations.DecodedLengthIsExact := by
  refine ⟨fun bs r i h => ⟨length_of_decode h, i.length_bounds⟩, fun s t x hsound h htrace => ?_⟩
  obtain ⟨i, r, hd, hx⟩ := decoded_of_trace h htrace
  rw [hx]
  change (s.endOf i).toNat = s.ip.toNat + (s.consumed i).length ∧ (s.consumed i).length = i.length
  rw [length_consumed hd]
  exact ⟨hsound.toNat_endOf hd, rfl⟩

/-- Settles O23: each decoded form is an encoding read back (`decode_encode`); the values are `toNat_sext16` and
`toNat_wordOf`. -/
theorem signExtendBitRule : Obligations.SignExtendBitRule := by
  intro ext mk rm v hi r hmk hrm
  have hdec (s : Bool) (w : Width) (imm : Imm) (hv : imm.fitsGroup s w = true) :
      decode (opcodeSW 0b100000 s w :: (rm.encode ext ++ (imm.encode ++ r))) = .ok (mk s w rm imm, r) := by
    obtain ⟨hwf, henc⟩ := groupOp_encode hmk s w rm imm
    rw [← decode_encode (hwf.trans (by rw [hrm, hv]; rfl)) r, henc, List.cons_append, List.append_assoc]
  refine ⟨hdec true .word (.imm8 v) rfl, ?_, hdec false .byte (.imm8 v) rfl, hdec true .byte (.imm8 v) rfl,
    fun s => ⟨?_, ?_, ?_, ?_⟩⟩
  · have h := hdec false .word (.imm16 (wordOf v hi)) rfl
    rw [Imm.encode, wordBytes_wordOf] at h
    exact h
  · exact toNat_sext16 v
  · exact toNat_wordOf v hi
  · rfl
  · obtain ⟨-, rfl⟩ | ⟨-, rfl⟩ | ⟨-, rfl⟩ := groupOp_eq_some hmk <;> rfl

/-- Settles O24: one clause per mod field, with the sum of R81 as a number (`State.toNat_baseValue_add`). -/
theorem modRmEffectiveAddress : Obligations.ModRmEffectiveAddress := by
  intro w s rm d lo hi r
  refine ⟨fun hrm => ⟨_, _, decodeRm_ind hrm r, rfl, ?_⟩, ⟨_, _, rfl, rfl, toNat_wordOf lo hi⟩, ⟨_, _, rfl, rfl, ?_⟩,
    ⟨_, _, rfl, rfl, ?_⟩, ⟨_, rfl, rfl, rfl⟩⟩
  · exact State.toNat_baseValue_add s rm 0
  · rw [State.toNat_baseValue_add, toNat_sext16]
  · rw [State.toNat_baseValue_add, toNat_wordOf, Nat.add_assoc]

/-- Settles O51: a memory operand is read at its effective address (`State.readOp_of_ea`); the others by definition. -/
theorem readOperandRule : Obligations.ReadOperandRule := by
  intro s w
  refine ⟨fun o a h => State.readOp_of_ea h w, fun c => ⟨rfl, rfl⟩, fun v hv => ?_, rfl, rfl, rfl, rfl, rfl, rfl, rfl, rfl⟩
  exact toNat_immValue hv

end Sys2Proof.Machine
end

section
/-! The six flags as R131 and R132 write them, with masks on numbers, and the flags word of R133 as a number. -/

namespace Sys2Proof.Machine

open Sys2Proof.Claims (popcount)

/-! ## One bit, as a mask on a number -/

variable {n : Nat}

theorem testBit_eq_decide_and_two_pow (v k : Nat) : v.testBit k = decide (v &&& 2 ^ k ≠ 0) := by
  rw [Nat.and_two_pow]
  cases v.testBit k <;> simp

theorem getLsbD_four_eq_decide_and (x : BitVec n) : x.getLsbD 4 = decide (x.toNat &&& 0x10 ≠ 0) :=
  testBit_eq_decide_and_two_pow x.toNat 4

theorem msb_eq_decide_and_two_pow (x : BitVec n) : x.msb = decide (x.toNat &&& 2 ^ (n - 1) ≠ 0) := by
  rw [BitVec.msb_eq_getLsbD_last]
  exact testBit_eq_decide_and_two_pow x.toNat (n - 1)

/-! ## The parity of the low byte (R29) -/

theorem ite_mod_two_eq_one (v : Nat) : (if v % 2 = 1 then 1 else 0) = v % 2 := by
  split <;> omega

theorem popcount_eq_countP_testBit (v : Nat) : popcount v = (List.range 8).countP v.testBit := by
  simp only [popcount, List.range, List.range.loop, List.countP_cons, List.countP_nil,
    Nat.testBit_eq_decide_div_mod_eq, decide_eq_true_eq, ite_mod_two_eq_one, Nat.reducePow]
  omega

theorem parityEven_eq_decide_popcount (r : BitVec n) :
    parityEven r = decide (popcount (r.toNat % 256) % 2 = 0) := by
  have hlow : (List.range 8).countP (r.toNat % 2 ^ 8).testBit = (List.range 8).countP fun k => r.getLsbD k :=
    List.countP_congr fun k hk => by
      rw [Nat.testBit_mod_two_pow, decide_eq_true (List.mem_range.1 hk), Bool.true_and, BitVec.getLsbD]
  rw [popcount_eq_countP_testBit]
  exact congrArg (fun c => decide (c % 2 = 0)) hlow.symm

/-! ## The result and the flags word -/

theorem toNat_sub_eq_add_sub_mod (x y : BitVec n) : (x - y).toNat = (x.toNat + 2 ^ n - y.toNat) % 2 ^ n := by
  rw [BitVec.toNat_sub, Nat.add_comm x.toNat, Nat.sub_add_comm y.isLt.le]

theorem Flags.toNat_toWord (f : Flags) :
    f.toWord.toNat =
      f.cf.toNat + 4 * f.pf.toNat + 16 * f.af.toNat + 64 * f.zf.toNat + 128 * f.sf.toNat + 2048 * f.of.toNat := by
  rcases f with ⟨cf, pf, af, zf, sf, of⟩
  revert cf pf af zf sf of
  decide

end Sys2Proof.Machine
end

section
/-! The obligations of spec/41_add_sub_cmp.md about the flags. -/

namespace Sys2Proof.Machine

/-- Settles O29: each flag's test on bit vectors is its mask on the numbers. -/
theorem addFlagsFormulas : Obligations.AddFlagsFormulas := by
  intro w x y
  have hr : (x + y).toNat = (x.toNat + y.toNat) % 2 ^ w.bits := BitVec.toNat_add x y
  refine ⟨hr, ?_⟩
  rw [← hr, addFlags, Flags.mk.injEq]
  exact ⟨rfl, parityEven_eq_decide_popcount _, getLsbD_four_eq_decide_and (x ^^^ y ^^^ (x + y)),
    decide_eq_decide.2 BitVec.toNat_eq, msb_eq_decide_and_two_pow _,
    msb_eq_decide_and_two_pow ((x ^^^ (x + y)) &&& (y ^^^ (x + y)))⟩

/-- Settles O30: as O29, with the difference as a number (`toNat_sub_eq_add_sub_mod`). -/
theorem subFlagsFormulas : Obligations.SubFlagsFormulas := by
  intro w x y
  have hr := toNat_sub_eq_add_sub_mod x y
  refine ⟨hr, ?_⟩
  rw [← hr, subFlags, Flags.mk.injEq]
  exact ⟨rfl, parityEven_eq_decide_popcount _, getLsbD_four_eq_decide_and (x ^^^ y ^^^ (x - y)),
    decide_eq_decide.2 BitVec.toNat_eq, msb_eq_decide_and_two_pow _,
    msb_eq_decide_and_two_pow ((x ^^^ y) &&& (x ^^^ (x - y)))⟩

/-- Settles O32: the word is its number (`Flags.toNat_toWord`), and `setFlags` is one record update. -/
theorem flagsWordLayout : Obligations.FlagsWordLayout := fun _ f => ⟨f.toNat_toWord, rfl⟩

end Sys2Proof.Machine
end

section
/-! The J8 instructions (spec/42_jcc_loop.md): the target as a number, and the rules `ConditionalJump` and `CountingLoop`
from what an opcode decodes to and the shared operation that the instruction runs. -/

namespace Sys2Proof.Machine

open Sys2Proof.Claims (JumpsTo ConditionalJump CountingLoop)

variable {opcode : Byte} {mk : Byte → Instr}

/-! ## The target (R160, R161) -/

theorem toNat_branchTarget (fin : Word) (rel : Byte) :
    ((branchTarget fin rel).toNat : Int) = (fin.toNat + rel.toInt) % 65536 := by
  rw [branchTarget, BitVec.toNat_add, toNat_sext16, BitVec.toInt_eq_toNat_cond]
  split <;> split <;> omega

/-- A two-byte instruction that branches from its end jumps as R160 and R161 say. -/
theorem jumpsTo_of_branch {s t : State} {i : Instr} {taken : Bool} {rel : Byte} (hlen : i.length = 2)
    (hip : t.ip = if taken then branchTarget (s.endOf i) rel else s.endOf i) : JumpsTo s t taken rel := by
  have hend := toNat_endOf s i
  rw [hlen] at hend
  rw [JumpsTo, hip]
  cases taken with
  | false => rw [if_neg Bool.false_ne_true, if_neg Bool.false_ne_true, hend]; omega
  | true => rw [if_pos rfl, if_pos rfl, toNat_branchTarget, hend]; omega

/-! ## The opcode and the displacement byte (R83, R86) -/

theorem decode_rel (hdec : ∀ bs, decode (opcode :: bs) = decodeRel mk bs) (rel : Byte) (r : List Byte) :
    decode (opcode :: rel :: r) = .ok (mk rel, r) := hdec (rel :: r)

theorem decode_rel_truncated (hdec : ∀ bs, decode (opcode :: bs) = decodeRel mk bs) :
    decode [opcode] = .error .truncatedInstruction := hdec []

theorem length_of_decode_rel (hdec : ∀ bs, decode (opcode :: bs) = decodeRel mk bs) (rel : Byte) :
    (mk rel).length = 2 := (length_of_decode (decode_rel hdec rel [])).symm

/-! ## Conditions (R175 to R179, R183) -/

theorem beq_eq_not_xor (a b : Bool) : (a == b) = !(a ^^ b) := (Bool.not_not _).symm

theorem State.toNat_decCx (s : State) : s.decCx.toNat = (s.regs.cx.toNat + 65535) % 65536 :=
  toNat_sub_eq_add_sub_mod s.regs.cx 1

theorem beq_zero_eq_decide_toNat (v : Word) : (v == 0) = decide (v.toNat = 0) :=
  decide_eq_decide.2 BitVec.toNat_eq

theorem bne_zero_eq_decide_toNat (v : Word) : (v != 0) = decide (v.toNat ≠ 0) := by
  rw [bne, beq_zero_eq_decide_toNat, decide_not]

/-! ## The two rules -/

/-- The rule of R162, for an opcode that decodes to an instruction that runs `jccOp` with this condition. -/
theorem conditionalJump_of_jccOp {taken : State → Bool} (hdec : ∀ bs, decode (opcode :: bs) = decodeRel mk bs)
    (hrun : ∀ rel s, exec (mk rel) s = jccOp (taken s) (s.endOf (mk rel)) rel s) : ConditionalJump opcode mk taken :=
  ⟨decode_rel hdec, decode_rel_truncated hdec, fun rel s =>
    ⟨_, hrun rel s, rfl, jumpsTo_of_branch (length_of_decode_rel hdec rel) rfl⟩⟩

/-- The rule of R179, for an opcode that decodes to an instruction that runs `loopOp` with this test of ZF. -/
theorem countingLoop_of_loopOp {zfTest : Bool → Bool} (hdec : ∀ bs, decode (opcode :: bs) = decodeRel mk bs)
    (hrun : ∀ rel s, exec (mk rel) s = loopOp (s.decCx != 0 && zfTest s.zf) (s.endOf (mk rel)) rel s) :
    CountingLoop opcode mk zfTest := by
  refine ⟨decode_rel hdec, decode_rel_truncated hdec, fun rel s => ⟨_, hrun rel s, s.toNat_decCx, rfl, ?_⟩⟩
  refine jumpsTo_of_branch (length_of_decode_rel hdec rel) ?_
  rw [State.branch_ip, bne_zero_eq_decide_toNat]
  rfl

end Sys2Proof.Machine
end

section
/-! The obligations of spec/42_jcc_loop.md about single instructions. -/

namespace Sys2Proof.Machine

/-- Settles O44: each jump runs `jccOp` with its flag. -/
theorem singleFlagJumps : Obligations.SingleFlagJumps := by
  refine ⟨?jo, ?jno, ?jb, ?jnb, ?jz, ?jnz, ?js, ?jns, ?jp, ?jnp⟩ <;>
    exact conditionalJump_of_jccOp (fun _ => rfl) fun _ _ => rfl

/-- Settles O45: as O44; `SF = OF` of R176 and R178 is the negation of `SF != OF`. -/
theorem comparisonJumps : Obligations.ComparisonJumps := by
  refine ⟨?jbe, ?jnbe, ?jl, ?jnl, ?jle, ?jnle⟩
  case jnl | jnle =>
    exact conditionalJump_of_jccOp (fun _ => rfl) fun _ s => by rw [← beq_eq_not_xor]; rfl
  all_goals exact conditionalJump_of_jccOp (fun _ => rfl) fun _ _ => rfl

/-- Settles O47: LOOP tests no flag, and JCXZ runs `jccOp` on CX as it stands. -/
theorem loopFamily : Obligations.LoopFamily := by
  refine ⟨?loopnz, ?loopz, ?loop, ?jcxz⟩
  case loopnz | loopz => exact countingLoop_of_loopOp (fun _ => rfl) fun _ _ => rfl
  case loop => exact countingLoop_of_loopOp (fun _ => rfl) fun _ s => by rw [Bool.and_true]; rfl
  case jcxz =>
    exact conditionalJump_of_jccOp (fun _ => rfl) fun _ s => by rw [← beq_zero_eq_decide_toNat]; rfl

end Sys2Proof.Machine
end

section
/-! No instruction writes to an immediate operand (spec/60_exceptions.md R203), and no run records such a write. -/

namespace Sys2Proof.Machine

theorem rmOperand_ne_imm (w : Width) (rm : RmOperand) (v : Imm) : rmOperand w rm ≠ .imm v := by
  cases rm <;> exact nofun

theorem rmRegDst_ne_imm (d : Dir) (w : Width) (reg : RegCode) (rm : RmOperand) (v : Imm) :
    rmRegDst d w reg rm ≠ .imm v := by
  cases d
  case toRm => exact rmOperand_ne_imm w rm v
  case toReg => exact nofun

/-- The destination of every form is a register or in memory. -/
theorem operands_dst_ne_imm {i : Instr} {dst src : Operand} (h : i.operands = some (dst, src)) (v : Imm) :
    dst ≠ .imm v := by
  cases i with
  | movRmReg d w reg rm | addRmReg d w reg rm | subRmReg d w reg rm | cmpRmReg d w reg rm =>
    cases h
    exact rmRegDst_ne_imm d w reg rm v
  | movRmImm w rm imm | addRmImm _ w rm imm | subRmImm _ w rm imm | cmpRmImm _ w rm imm =>
    cases h
    exact rmOperand_ne_imm w rm v
  | movRegImm | movAccMem | movMemAcc | addAccImm | subAccImm | cmpAccImm =>
    cases h
    exact nofun
  | _ => cases h

theorem State.writeOp_eq_fault_iff {s : State} {w : Width} {o : Operand} {x : BitVec w.bits} {c : Fault} :
    s.writeOp w o x = .fault c ↔ (∃ v, o = .imm v) ∧ c = .invalidOperandCombination := by
  cases o <;> simp [State.writeOp, eq_comm]

/-- The fault record, if any, has the cause of a decode failure. -/
def State.FaultFromDecoder (s : State) : Prop := ∀ r, s.fault = some r → ∃ e, r.cause = causeOf e

theorem State.launched_faultFromDecoder (bs : List Byte) (m : Mode) : (State.launched bs m).FaultFromDecoder := nofun

theorem step_faultFromDecoder {s t : State} (h : step s = .next t) (hs : s.FaultFromDecoder) : t.FaultFromDecoder := by
  obtain ⟨-, rfl⟩ | ⟨e, -, -, rfl⟩ | ⟨i, r, u, x, -, -, ⟨-, -, -, hfault, -⟩, rfl⟩ := step_cases_retire h
  · exact hs
  · rintro r ⟨⟩
    exact ⟨e, rfl⟩
  · exact fun r hr => hs r (hfault ▸ hr)

theorem State.Reachable.faultFromDecoder {s : State} (h : s.Reachable) : s.FaultFromDecoder := by
  obtain ⟨bs, m, s₀, hlaunch, hrun⟩ := h
  induction hrun with
  | refl => exact launch_next hlaunch ▸ State.launched_faultFromDecoder bs m
  | tail _ last ih => exact step_faultFromDecoder last ih

end Sys2Proof.Machine
end

section
/-! How many bytes each part of the decoder needs (spec/30_encoding.md R79 to R87), and the check that fails first on any bytes
(spec/60_exceptions.md R207). -/

namespace Sys2Proof

/-! ## Parts that fail only by truncation (R202) -/

/-- The part `x` of the decoder, run on `bs`, consumes `n` bytes, and fails only where `bs` is shorter: by truncation. -/
def Reads {α : Type} (n : Nat) (bs : List Byte) (x : Decoded α) : Prop :=
  (bs.length < n ∧ x = .error .truncatedInstruction) ∨ ∃ a r, x = .ok (a, r) ∧ bs.length = n + r.length

section
variable {α β : Type} {n m : Nat} {bs : List Byte} {x : Decoded α}

theorem Reads.map (h : Reads n bs x) (f : α → β) : Reads n bs (x.map (Prod.map f id)) := by
  obtain ⟨hlt, rfl⟩ | ⟨a, r, rfl, hlen⟩ := h
  · exact .inl ⟨hlt, rfl⟩
  · exact .inr ⟨f a, r, rfl, hlen⟩

theorem Reads.bind (h : Reads n bs x) {f : α × List Byte → Decoded β} (hf : ∀ a r, Reads m r (f (a, r))) :
    Reads (n + m) bs (x.bind f) := by
  obtain ⟨hlt, rfl⟩ | ⟨a, r, rfl, hlen⟩ := h
  · exact .inl ⟨by omega, rfl⟩
  · obtain ⟨hlt, hx⟩ | ⟨b, r', hx, hlen'⟩ := hf a r
    · exact .inl ⟨by omega, hx⟩
    · exact .inr ⟨b, r', hx, by omega⟩

theorem Reads.cons (h : Reads n bs x) (b : Byte) : Reads (1 + n) (b :: bs) x := by
  obtain ⟨hlt, hx⟩ | ⟨a, r, hx, hlen⟩ := h
  · exact .inl ⟨by rw [List.length_cons]; omega, hx⟩
  · exact .inr ⟨a, r, hx, by rw [List.length_cons]; omega⟩

theorem Reads.eq_truncated (h : Reads n bs x) (hlt : bs.length < n) : x = .error .truncatedInstruction := by
  obtain ⟨-, hx⟩ | ⟨a, r, -, hlen⟩ := h
  · exact hx
  · omega

theorem Reads.exists_ok (h : Reads n bs x) (hle : n ≤ bs.length) : ∃ a r, x = .ok (a, r) ∧ bs.length = n + r.length := by
  obtain ⟨hlt, -⟩ | hok := h
  · omega
  · exact hok

theorem Reads.ne_unrecognized (h : Reads n bs x) (c : List Byte) : x ≠ .error (.unrecognizedOpcode c) := by
  obtain ⟨-, rfl⟩ | ⟨a, r, rfl, -⟩ := h <;> exact nofun

theorem reads_zero (bs : List Byte) (a : α) : Reads 0 bs (.ok (a, bs)) := .inr ⟨a, bs, rfl, (Nat.zero_add _).symm⟩

end

theorem nextByte_reads : ∀ bs : List Byte, Reads 1 bs (nextByte bs)
  | [] => .inl ⟨Nat.one_pos, rfl⟩
  | b :: r => .inr ⟨b, r, rfl, Nat.add_comm _ _⟩

theorem nextWord_reads : ∀ bs : List Byte, Reads 2 bs (nextWord bs)
  | [] => .inl ⟨Nat.two_pos, rfl⟩
  | [_] => .inl ⟨Nat.one_lt_two, rfl⟩
  | lo :: hi :: r => .inr ⟨wordOf lo hi, r, rfl, Nat.add_comm r.length 2⟩

theorem decodeImm_reads {n : Nat} (hn : n = 1 ∨ n = 2) (bs : List Byte) : Reads n bs (decodeImm n bs) := by
  obtain rfl | rfl := hn
  · exact decodeImm_one bs ▸ (nextByte_reads bs).map Imm.imm8
  · exact decodeImm_two bs ▸ (nextWord_reads bs).map Imm.imm16

theorem decodeRm_reads (m : BitVec 2) (rm : BitVec 3) (bs : List Byte) :
    Reads (displacementSize m rm) bs (decodeRm m rm bs) := by
  obtain rfl | rfl | rfl | rfl := mod_cases m
  · by_cases hrm : rm = 6
    · subst hrm
      exact decodeRm_direct bs ▸ (nextWord_reads bs).map RmOperand.direct
    · rw [decodeRm_ind hrm, show displacementSize 0 rm = 0 from if_neg hrm]
      exact reads_zero bs _
  · exact decodeRm_ind8 rm bs ▸ (nextByte_reads bs).map _
  · exact decodeRm_ind16 rm bs ▸ (nextWord_reads bs).map _
  · exact reads_zero bs _

/-! ## The formats (R83, R86) -/

/-- The displacement size of R79, for the modrm byte that comes first in `r`. -/
def headDispSize (r : List Byte) : Nat := displacementSize (fieldMod (r.headD 0)) (fieldRm (r.headD 0))

theorem reads_of_no_modRm {α : Type} {n : Nat} : Reads (1 + n) [] (.error .truncatedInstruction : Decoded α) :=
  .inl ⟨by rw [List.length_nil]; omega, rfl⟩

theorem decodeRmReg_reads (mk : Dir → Width → RegCode → RmOperand → Instr) (b0 : Byte) :
    ∀ r : List Byte, Reads (1 + headDispSize r) r (decodeRmReg mk b0 r)
  | [] => reads_of_no_modRm
  | b1 :: r => decodeRmReg_cons mk b0 b1 r ▸ ((decodeRm_reads _ _ r).map _).cons b1

theorem decodeRmImm_reads (mk : RmOperand → Imm → Instr) (b1 : Byte) {n : Nat} (hn : n = 1 ∨ n = 2) (r : List Byte) :
    Reads (1 + (headDispSize (b1 :: r) + n)) (b1 :: r) (decodeRmImm mk b1 n r) :=
  decodeRmImm_eq mk b1 n r ▸ ((decodeRm_reads _ _ r).bind fun rm r' => (decodeImm_reads hn r').map (mk rm)).cons b1

theorem decodeMovRmImm_reads (b0 : Byte) :
    ∀ r : List Byte, fieldReg (r.headD 0) = 0 →
      Reads (1 + (headDispSize r + (fieldW b0).bytes)) r (decodeMovRmImm b0 r)
  | [], _ => reads_of_no_modRm
  | b1 :: r, hext => by
    rw [decodeMovRmImm, if_pos (show fieldReg b1 = 0 from hext)]
    exact decodeRmImm_reads _ b1 (fieldW b0).bytes_eq r

theorem decodeGroup_reads (b0 : Byte) :
    ∀ r : List Byte, groupOp (fieldReg (r.headD 0)) ≠ none →
      Reads (1 + (headDispSize r + groupImmBytes (fieldS b0) (fieldW b0))) r (decodeGroup b0 r)
  | [], _ => reads_of_no_modRm
  | b1 :: r, hext => by
    obtain ⟨mk, hmk⟩ := Option.ne_none_iff_exists'.1 hext
    rw [decodeGroup, show groupOp (fieldReg b1) = some mk from hmk]
    exact decodeRmImm_reads _ b1 (groupImmBytes_eq _ _) r

theorem decodeImmOnly_reads (mk : Imm → Instr) (w : Width) (r : List Byte) : Reads w.bytes r (decodeImmOnly mk w r) := by
  have hmap : decodeImmOnly mk w r = (decodeImm w.bytes r).map (Prod.map mk id) := by
    unfold decodeImmOnly
    cases decodeImm w.bytes r <;> rfl
  exact hmap ▸ (decodeImm_reads w.bytes_eq r).map mk

theorem decodeAccMem_reads (mk : Width → Word → Instr) (b0 : Byte) (r : List Byte) : Reads 2 r (decodeAccMem mk b0 r) := by
  have hmap : decodeAccMem mk b0 r = (nextWord r).map (Prod.map (mk (fieldW b0)) id) := by
    unfold decodeAccMem
    cases nextWord r <;> rfl
  exact hmap ▸ (nextWord_reads r).map _

theorem decodeRel_reads (mk : Byte → Instr) (r : List Byte) : Reads 1 r (decodeRel mk r) := by
  have hmap : decodeRel mk r = (nextByte r).map (Prod.map mk id) := by
    unfold decodeRel
    cases nextByte r <;> rfl
  exact hmap ▸ (nextByte_reads r).map mk

end Sys2Proof
end

section
/-! The bit patterns of R84 as the ranges of numbers that the statements use, and the lengths of R83. -/

namespace Sys2Proof

open Claims

variable {b0 b1 : Byte}

/-- The patterns of R84 match exactly the 68 mapped bytes. -/
theorem noForm_iff : NoForm b0 ↔ ¬Mapped b0 := by
  simp only [NoForm, Mapped]
  revert b0; decide

theorem toNat_fieldReg (b1 : Byte) : (fieldReg b1).toNat = b1.toNat / 8 % 8 := by
  revert b1; decide

theorem headDispSize_eq (r : List Byte) : headDispSize r = dispSize (r.headD 0) := by
  have (b1 : Byte) : displacementSize (fieldMod b1) (fieldRm b1) = dispSize b1 := by revert b1; decide
  exact this _

theorem fieldW_bytes (b0 : Byte) : (fieldW b0).bytes = 1 + b0.toNat % 2 := by
  revert b0; decide

theorem fieldWRegImm_bytes (b0 : Byte) : (fieldWRegImm b0).bytes = 1 + b0.toNat / 8 % 2 := by
  revert b0; decide

theorem groupImmBytes_of_and (h : b0 &&& 0xFC = 0x80) :
    groupImmBytes (fieldS b0) (fieldW b0) = if b0.toNat = 0x81 then 2 else 1 := by
  revert b0; decide

/-! ## The lengths of R83, by format: the first byte and the rest -/

theorem formLength_rmReg
    (h : b0 &&& 0xFC = 0x88 ∨ b0 &&& 0xFC = 0x00 ∨ b0 &&& 0xFC = 0x28 ∨ b0 &&& 0xFC = 0x38) (r : List Byte) :
    formLength b0 (r.headD 0) = 1 + (1 + headDispSize r) := by
  have hrange : b0.toNat ≤ 0x03 ∨ (0x28 ≤ b0.toNat ∧ b0.toNat ≤ 0x2B) ∨ (0x38 ≤ b0.toNat ∧ b0.toNat ≤ 0x3B) ∨
      (0x88 ≤ b0.toNat ∧ b0.toNat ≤ 0x8B) := by revert b0; decide
  rw [formLength, if_pos hrange, headDispSize_eq]
  omega

theorem formLength_movRmImm (h : b0 &&& 0xFE = 0xC6) (r : List Byte) :
    formLength b0 (r.headD 0) = 1 + (1 + (headDispSize r + (fieldW b0).bytes)) := by
  have hrange : 0xC6 ≤ b0.toNat ∧ b0.toNat ≤ 0xC7 := by revert b0; decide
  rw [formLength, if_neg (by omega), if_pos (by omega), headDispSize_eq, fieldW_bytes]
  omega

theorem formLength_group (h : b0 &&& 0xFC = 0x80) (r : List Byte) :
    formLength b0 (r.headD 0) = 1 + (1 + (headDispSize r + groupImmBytes (fieldS b0) (fieldW b0))) := by
  have hrange : 0x80 ≤ b0.toNat ∧ b0.toNat ≤ 0x83 := by revert b0; decide
  rw [formLength, if_neg (by omega), if_neg (by omega), if_pos hrange, headDispSize_eq, groupImmBytes_of_and h]
  omega

theorem formLength_movRegImm (h : b0 &&& 0xF0 = 0xB0) (b1 : Byte) :
    formLength b0 b1 = 1 + (fieldWRegImm b0).bytes := by
  have hrange : 0xB0 ≤ b0.toNat ∧ b0.toNat ≤ 0xBF := by revert b0; decide
  rw [formLength, if_neg (by omega), if_neg (by omega), if_neg (by omega), if_pos hrange, fieldWRegImm_bytes]
  omega

theorem formLength_accMem (h : b0 &&& 0xFE = 0xA0 ∨ b0 &&& 0xFE = 0xA2) (b1 : Byte) : formLength b0 b1 = 1 + 2 := by
  have hrange : 0xA0 ≤ b0.toNat ∧ b0.toNat ≤ 0xA3 := by revert b0; decide
  rw [formLength, if_neg (by omega), if_neg (by omega), if_neg (by omega), if_neg (by omega), if_pos hrange]

theorem formLength_accImm (h : b0 &&& 0xFE = 0x04 ∨ b0 &&& 0xFE = 0x2C ∨ b0 &&& 0xFE = 0x3C) (b1 : Byte) :
    formLength b0 b1 = 1 + (fieldW b0).bytes := by
  have hvalue : b0.toNat = 0x04 ∨ b0.toNat = 0x05 ∨ b0.toNat = 0x2C ∨ b0.toNat = 0x2D ∨ b0.toNat = 0x3C ∨
      b0.toNat = 0x3D := by revert b0; decide
  rw [formLength, if_neg (by omega), if_neg (by omega), if_neg (by omega), if_neg (by omega), if_neg (by omega),
    if_pos hvalue, fieldW_bytes]
  omega

theorem formLength_rel (h : b0 &&& 0xF0 = 0x70 ∨ b0 &&& 0xFC = 0xE0) (b1 : Byte) : formLength b0 b1 = 1 + 1 := by
  have hrange : (0x70 ≤ b0.toNat ∧ b0.toNat ≤ 0x7F) ∨ (0xE0 ≤ b0.toNat ∧ b0.toNat ≤ 0xE3) := by revert b0; decide
  rw [formLength, if_neg (by omega), if_neg (by omega), if_neg (by omega), if_neg (by omega), if_neg (by omega),
    if_neg (by omega)]

/-! ## Bad extensions (R90, R201) -/

theorem badExtension_iff_of_group (h : b0 &&& 0xFC = 0x80) : BadExtension b0 b1 ↔ groupOp (fieldReg b1) = none := by
  have hrange : 0x80 ≤ b0.toNat ∧ b0.toNat ≤ 0x83 := by revert b0; decide
  have hgroup (ext : BitVec 3) : groupOp ext = none ↔ ext.toNat ≠ 0 ∧ ext.toNat ≠ 5 ∧ ext.toNat ≠ 7 := by
    obtain rfl | rfl | rfl | rfl | rfl | rfl | rfl | rfl := regCode_cases ext <;> simp [groupOp]
  rw [hgroup, toNat_fieldReg, BadExtension]
  omega

theorem badExtension_iff_of_mov (h : b0 &&& 0xFE = 0xC6) : BadExtension b0 b1 ↔ fieldReg b1 ≠ 0 := by
  have hrange : 0xC6 ≤ b0.toNat ∧ b0.toNat ≤ 0xC7 := by revert b0; decide
  have hext : fieldReg b1 ≠ 0 ↔ b1.toNat / 8 % 8 ≠ 0 := by rw [← toNat_fieldReg, ne_eq, BitVec.toNat_eq]; rfl
  rw [hext, BadExtension]
  omega

theorem and_of_badExtension (h : BadExtension b0 b1) : b0 &&& 0xFC = 0x80 ∨ b0 &&& 0xFE = 0xC6 := by
  have hrange : (0x80 ≤ b0.toNat ∧ b0.toNat ≤ 0x83) ∨ b0.toNat = 0xC6 ∨ b0.toNat = 0xC7 := by
    rw [BadExtension] at h
    omega
  clear h
  revert b0; decide

/-! ## The first failing check (R207) -/

theorem decode_of_not_mapped (h : ¬Mapped b0) (r : List Byte) : decode (b0 :: r) = .error (.unrecognizedOpcode [b0]) := by
  obtain ⟨h1, h2, h3, h4, h5, h6, h7, h8, h9, h10, h11, h12, h13, h14⟩ := noForm_iff.2 h
  simp only [decode, decodeForm, *, if_false]

theorem decode_eq_decodeGroup (h : b0 &&& 0xFC = 0x80) (r : List Byte) : decode (b0 :: r) = decodeGroup b0 r := by
  have hb : b0 = 0x80 ∨ b0 = 0x81 ∨ b0 = 0x82 ∨ b0 = 0x83 := by revert b0; decide
  obtain rfl | rfl | rfl | rfl := hb <;> rfl

theorem decode_eq_decodeMovRmImm (h : b0 &&& 0xFE = 0xC6) (r : List Byte) : decode (b0 :: r) = decodeMovRmImm b0 r := by
  have hb : b0 = 0xC6 ∨ b0 = 0xC7 := by revert b0; decide
  obtain rfl | rfl := hb <;> rfl

theorem decode_of_badExtension (h : BadExtension b0 b1) (r : List Byte) :
    decode (b0 :: b1 :: r) = .error (.unrecognizedOpcode [b0, b1]) := by
  obtain hgroup | hmov := and_of_badExtension h
  · rw [decode_eq_decodeGroup hgroup, decodeGroup, (badExtension_iff_of_group hgroup).1 h]
  · rw [decode_eq_decodeMovRmImm hmov, decodeMovRmImm, if_neg ((badExtension_iff_of_mov hmov).1 h)]

/-- With a mapped first byte and no bad extension, decoding fails only by truncation, and reads what R83 gives the form. -/
theorem decode_reads (hmap : Mapped b0) (r : List Byte) (hext : ¬BadExtension b0 (r.headD 0)) :
    Reads (formLength b0 (r.headD 0)) (b0 :: r) (decode (b0 :: r)) := by
  have whole {n : Nat} {x : Decoded Instr} (hlen : formLength b0 (r.headD 0) = 1 + n) (h : Reads n r x) :
      Reads (formLength b0 (r.headD 0)) (b0 :: r) x := hlen ▸ h.cons b0
  obtain ⟨hb, hd⟩ | ⟨hb, hd⟩ | ⟨hb, hd⟩ | ⟨hb, hd⟩ | ⟨hb, hd⟩ | ⟨hb, hd⟩ | ⟨hb, hd⟩ | ⟨hb, hd⟩ | ⟨hb, hd⟩ | ⟨hb, hd⟩ |
    ⟨hb, hd⟩ | ⟨hb, hd⟩ | ⟨hb, hd⟩ | ⟨hb, hd⟩ | ⟨hb, hd⟩ := decodeForm_cases b0 r <;> rw [decode_cons, hd]
  · exact whole (formLength_rmReg (.inl hb) r) (decodeRmReg_reads _ b0 r)
  · exact whole (formLength_rmReg (.inr (.inl hb)) r) (decodeRmReg_reads _ b0 r)
  · exact whole (formLength_rmReg (.inr (.inr (.inl hb))) r) (decodeRmReg_reads _ b0 r)
  · exact whole (formLength_rmReg (.inr (.inr (.inr hb))) r) (decodeRmReg_reads _ b0 r)
  · have hreg : fieldReg (r.headD 0) = 0 := not_not.1 ((badExtension_iff_of_mov hb).not.1 hext)
    exact whole (formLength_movRmImm hb r) (decodeMovRmImm_reads b0 r hreg)
  · exact whole (formLength_group hb r) (decodeGroup_reads b0 r ((badExtension_iff_of_group hb).not.1 hext))
  · exact whole (formLength_movRegImm hb _) (decodeImmOnly_reads _ _ r)
  · exact whole (formLength_accMem (.inl hb) _) (decodeAccMem_reads _ b0 r)
  · exact whole (formLength_accMem (.inr hb) _) (decodeAccMem_reads _ b0 r)
  · exact whole (formLength_accImm (.inl hb) _) (decodeImmOnly_reads _ _ r)
  · exact whole (formLength_accImm (.inr (.inl hb)) _) (decodeImmOnly_reads _ _ r)
  · exact whole (formLength_accImm (.inr (.inr hb)) _) (decodeImmOnly_reads _ _ r)
  · exact whole (formLength_rel (.inl hb) _) (decodeRel_reads _ r)
  · exact whole (formLength_rel (.inr hb) _) (decodeRel_reads _ r)
  · exact absurd hmap (noForm_iff.1 hb)

theorem mapped_of_hasModRm (h : HasModRm b0) : Mapped b0 := by
  rw [HasModRm] at h
  rw [Mapped]
  omega

theorem two_le_formLength (b0 b1 : Byte) : 2 ≤ formLength b0 b1 := by
  rw [formLength]
  split_ifs <;> omega

theorem not_badExtension_zero : ¬BadExtension b0 0 := by
  simp [BadExtension]

end Sys2Proof
end

section
/-! The obligations of spec/60_exceptions.md. -/

namespace Sys2Proof.Machine

open Claims

/-- Settles O7: no form has an immediate destination, and a run records only causes of the decoder
(`State.Reachable.faultFromDecoder`). -/
theorem invalidOperandCombinationUnreachable : Obligations.InvalidOperandCombinationUnreachable := by
  refine ⟨fun _ _ _ _ _ _ hops => operands_dst_ne_imm hops, fun _ _ _ _ _ => State.writeOp_eq_fault_iff, fun s r hs hr => ?_⟩
  obtain ⟨e, he⟩ := hs.faultFromDecoder r hr
  exact he ▸ causeOf_ne_invalidOperandCombination e

/-- Settles O20: the first failing check is one of the two, or decoding fails only by truncation (`decode_reads`). -/
theorem unrecognizedOpcodeExactly : Obligations.UnrecognizedOpcodeExactly := by
  refine fun b0 r c => ⟨fun h => ?_, ?_⟩
  · by_cases hmap : Mapped b0
    · by_cases hext : BadExtension b0 (r.headD 0)
      · cases r with
        | nil => exact absurd hext not_badExtension_zero
        | cons b1 r' =>
          cases (decode_of_badExtension hext r').symm.trans h
          exact .inr ⟨b1, r', rfl, hext, rfl⟩
      · exact absurd h ((decode_reads hmap r hext).ne_unrecognized c)
    · cases (decode_of_not_mapped hmap r).symm.trans h
      exact .inl ⟨hmap, rfl⟩
  · rintro (⟨hmap, rfl⟩ | ⟨b1, r', rfl, hext, rfl⟩)
    · exact decode_of_not_mapped hmap r
    · exact decode_of_badExtension hext r'

/-- Settles O21: each check by its lemma; past them, decoding reads exactly the form's length (`decode_reads`). -/
theorem firstFailingCheckIsReported : Obligations.FirstFailingCheckIsReported := by
  refine fun b0 r => ⟨fun hmap => decode_of_not_mapped hmap r, fun hrm => ?_, fun b1 hext => decode_of_badExtension hext r,
    fun hmap hext => ⟨(decode_reads hmap r hext).eq_truncated, fun hle => ?_⟩⟩
  · exact (decode_reads (mapped_of_hasModRm hrm) [] not_badExtension_zero).eq_truncated (two_le_formLength b0 0)
  · obtain ⟨i, r', hd, hlen⟩ := (decode_reads hmap r hext).exists_ok hle
    exact ⟨i, r', hd, Nat.add_right_cancel ((length_of_decode hd).symm.trans hlen)⟩

end Sys2Proof.Machine
end

section
/-! The step cycle by its cases, and the flags word after any instruction. -/

namespace Sys2Proof.Machine

variable {s t u : State} {i : Instr} {r bs : List Byte}

/-! ## Steps that execute nothing (R98, R206) -/

theorem State.stopped_or_running (s : State) : s.Stopped ∨ s.status = .running := by
  unfold State.Stopped
  cases s.status <;> simp

theorem step_of_stopped (h : s.Stopped) : step s = .next s := by
  obtain h | h := h <;> simp [step, cycle, h]

theorem step_of_decode_error {e : DecodeError} (hs : s.status = .running) (hd : decode s.fetchBytes = .error e) :
    step s = .next (s.raiseDecode e) := by
  simp [step, cycle, hs, hd]

/-- Stopped, at a decode failure, or at an instruction, which never faults: a step answers in each. -/
theorem step_next (s : State) : ∃ t, step s = .next t := by
  obtain hstop | hs := s.stopped_or_running
  · exact ⟨s, step_of_stopped hstop⟩
  · cases hd : decode s.fetchBytes with
    | error e => exact ⟨_, step_of_decode_error hs hd⟩
    | ok p =>
      cases hm : s.mode with
      | decodeOnly => exact ⟨_, step_decodeOnly hs hm hd⟩
      | execute =>
        obtain ⟨u, hu⟩ := exec_next p.1 s
        exact ⟨_, step_execute hs hm hd hu⟩

theorem steps_of_stopped (h : s.Stopped) (hrun : Steps s t) : t = s := by
  induction hrun with
  | refl => rfl
  | tail _ last ih =>
    rw [ih, step_of_stopped h] at last
    cases last
    rfl

/-! ## Launch (R44, I4) -/

theorem launch_eq_next_iff {m : Mode} :
    State.launch bs m = .next s ↔ bs.length ≤ 65535 ∧ s = .launched bs m := by
  rw [State.launch, Config.maxStream]
  split <;> simp [*, eq_comm]

theorem launch_eq_refused_iff {m : Mode} : State.launch bs m = .refused .streamTooLong ↔ 65535 < bs.length := by
  rw [State.launch, Config.maxStream]
  split <;> simp <;> omega

/-! ## What an instruction leaves in memory and flags -/

theorem exec_mem_wf (hm : s.mem.wf) (h : exec i s = .next t) : t.mem.wf := by
  obtain hmem | ⟨w, dst, -, -, a, v, -, hmem⟩ := exec_mem h
  · exact hmem ▸ hm
  · exact hmem ▸ State.wf_memWrite hm w a v

/-- ADD, SUB and CMP write the whole flags word (R34, R133). -/
theorem exec_flags_of_writesFlags (hw : writesFlags i = true) (h : exec i s = .next t) :
    ∃ f : Flags, t.flags = f.toWord := by
  cases Meaning.of i with
  | mov w dst src writes _ _ => cases writes.symm.trans hw
  | alu w result dst src _ _ run =>
    obtain ⟨u, -, rfl⟩ := aluWrite_next (run s ▸ h)
    exact ⟨_, rfl⟩
  | cmp w dst src _ run =>
    cases (run s).symm.trans h
    exact ⟨_, rfl⟩
  | jump taken rel writes _ => cases writes.symm.trans hw
  | countdown taken rel writes _ => cases writes.symm.trans hw

theorem exec_flags_reserved (hf : s.flags &&& Flags.reservedMask = 0) (h : exec i s = .next t) :
    t.flags &&& Flags.reservedMask = 0 := by
  cases hw : writesFlags i with
  | false => rw [exec_flags_of_not_writesFlags hw h, hf]
  | true =>
    obtain ⟨f, hflags⟩ := exec_flags_of_writesFlags hw h
    rw [hflags, Flags.toWord_reserved]

end Sys2Proof.Machine
end

section
/-! The invariant `State.Sound`: every launch has it, and fault entry and retirement keep it. -/

namespace Sys2Proof.Machine

variable {s u : State} {i : Instr} {r bs : List Byte}

theorem State.launched_sound (hlen : bs.length ≤ 65535) (m : Mode) : (State.launched bs m).Sound where
  mem := Memory.wf_nil
  flags := BitVec.zero_and
  stream := hlen
  running h := by
    have hne : bs.length ≠ 0 := fun h0 => by simp [h0] at h
    exact Nat.pos_of_ne_zero hne
  ended h := by
    have h0 : bs.length = 0 := by_contra fun hne => by simp [hne] at h
    exact h0.le
  fault := by
    rw [State.launched_status]
    split <;> simp
  record _ h := nomatch h
  trace := rfl

/-- A RUNNING block has no fault record (R41). -/
theorem State.Sound.fault_eq_none (h : s.Sound) (hs : s.status = .running) : s.fault = none := by
  rw [← Option.not_isSome_iff_eq_none, h.fault, hs]
  exact nofun

/-- Retirement keeps the invariant, after an instruction that keeps the control state, memory's form and the reserved
flag bits. -/
theorem State.Sound.retire (h : s.Sound) (hs : s.status = .running) (hc : SameControl s u) (hmem : u.mem.wf)
    (hflags : u.flags &&& Flags.reservedMask = 0) (x : TraceRecord) : (u.retire x).Sound := by
  obtain ⟨hstatus, -, hstream, hfault, hretired, htrace⟩ := hc
  have hnone : u.fault = none := hfault.trans (h.fault_eq_none hs)
  have hend : (u.retire x).status = .ended ↔ u.stream.length ≤ u.ip.toNat :=
    State.retire_status_ended_iff (hstatus.trans hs)
  refine ⟨hmem, hflags, hstream ▸ h.stream, fun hrun => ?_, hend.1, ?_, fun r hr => ?_, ?_⟩
  · exact Nat.lt_of_not_le fun hle => nomatch hrun.symm.trans (hend.2 hle)
  · rw [State.retire_fault, hnone, State.retire_status, hstatus, hs]
    split <;> simp
  · cases hnone.symm.trans hr
  · rw [State.retire_trace, htrace, List.length_append, h.trace, ← hretired]
    rfl

/-! ## The bytes of a decode failure (R201, R202, R204) -/

theorem formLength_le (b0 b1 : Byte) : Claims.formLength b0 b1 ≤ 6 := by
  have hdisp : Claims.dispSize b1 ≤ 2 := by
    rw [Claims.dispSize]
    split_ifs <;> omega
  rw [Claims.formLength]
  split_ifs <;> omega

theorem length_lt_of_decode_truncated {b0 : Byte} (h : decode (b0 :: r) = .error .truncatedInstruction) :
    (b0 :: r).length < 6 := by
  obtain ⟨hunmapped, -, hbad, hmapped⟩ := firstFailingCheckIsReported b0 r
  have hmap : Claims.Mapped b0 := by_contra fun hno => nomatch h.symm.trans (hunmapped hno)
  have hext : ¬Claims.BadExtension b0 (r.headD 0) := by
    cases r with
    | nil => exact not_badExtension_zero
    | cons b1 r' => exact fun hbe => nomatch h.symm.trans (decode_of_badExtension hbe r')
  refine Nat.lt_of_lt_of_le (Nat.lt_of_not_le fun hle => ?_) (formLength_le b0 (r.headD 0))
  obtain ⟨i, r', hd, -⟩ := (hmapped hmap hext).2 hle
  cases h.symm.trans hd

/-- The record of a decode failure holds 1 to 6 bytes, those at `ip`. -/
theorem State.faultBytes_eq_take (hip : s.ip.toNat < s.stream.length) {e : DecodeError}
    (he : decode s.fetchBytes = .error e) :
    1 ≤ (s.faultBytes e).length ∧ (s.faultBytes e).length ≤ 6 ∧
      s.faultBytes e = s.fetchBytes.take (s.faultBytes e).length := by
  have hpos : s.fetchBytes ≠ [] := by
    rw [State.fetchBytes, ne_eq, List.drop_eq_nil_iff]
    omega
  obtain ⟨b0, r, hbs⟩ := List.exists_cons_of_ne_nil hpos
  rw [hbs] at he
  cases e with
  | unrecognizedOpcode c =>
    rw [State.faultBytes, hbs]
    obtain ⟨-, rfl⟩ | ⟨b1, r', rfl, -, rfl⟩ := (unrecognizedOpcodeExactly b0 r c).1 he <;> simp
  | truncatedInstruction =>
    rw [State.faultBytes, hbs]
    have hlt := length_lt_of_decode_truncated he
    exact ⟨by simp, hlt.le, List.take_length.symm⟩

theorem State.Sound.raiseDecode (h : s.Sound) (hs : s.status = .running) {e : DecodeError}
    (he : decode s.fetchBytes = .error e) : (s.raiseDecode e).Sound where
  mem := h.mem
  flags := h.flags
  stream := h.stream
  running hrun := nomatch hrun
  ended hend := nomatch hend
  fault := by simp [State.raiseDecode]
  record := by
    rintro r ⟨⟩
    obtain ⟨hpos, hle, htake⟩ := State.faultBytes_eq_take (h.running hs) he
    exact ⟨⟨e, he, by cases e <;> rfl⟩, hpos, hle, htake⟩
  trace := h.trace

theorem State.Sound.step (h : s.Sound) (hstep : step s = .next u) : u.Sound := by
  obtain ⟨-, rfl⟩ | ⟨e, hs, he, rfl⟩ | ⟨i, r, hs, -, -, rfl⟩ | ⟨i, r, v, hs, -, -, hx, rfl⟩ |
    ⟨i, r, c, -, -, -, hx, -⟩ := step_cases hstep
  · exact h
  · exact h.raiseDecode hs he
  · exact h.retire (u := s.setIp (s.endOf i)) hs ⟨rfl, rfl, rfl, rfl, rfl, rfl⟩ h.mem h.flags _
  · exact h.retire hs (exec_sameControl hx) (exec_mem_wf h.mem hx) (exec_flags_reserved h.flags hx) _
  · obtain ⟨v, hv⟩ := exec_next i s
    cases hv.symm.trans hx

end Sys2Proof.Machine
end

section
/-! The obligations about launch, the invariant, the step cycle and the round trip of the decoder. -/

namespace Sys2Proof.Machine

/-- Settles O4: fault entry and retirement keep each part of the invariant (`State.Sound.step`). -/
theorem stepKeepsSound : Obligations.StepKeepsSound := fun _ _ => State.Sound.step

/-- Settles O16: an encoding is decoded, form by form (`decode_encode`). -/
theorem decodeGivesBackEncodedInstruction : Obligations.DecodeGivesBackEncodedInstruction :=
  fun _ r hwf => decode_encode hwf r

/-- Settles O17: decoded bytes are an encoding, format by format (`encode_of_decode`). -/
theorem encodeGivesBackDecodedBytes : Obligations.EncodeGivesBackDecodedBytes := fun _ _ _ => encode_of_decode

/-- Settles O5: every instruction answers (`exec_next`), so only fault entry changes the fault record. -/
theorem noFaultDuringExecution : Obligations.NoFaultDuringExecution := by
  refine ⟨exec_next, fun s t h hne => ?_⟩
  obtain ⟨-, rfl⟩ | ⟨e, -, he, rfl⟩ | ⟨i, r, u, x, -, -, ⟨-, -, -, hfault, -⟩, rfl⟩ := step_cases_retire h
  · exact absurd rfl hne
  · exact ⟨⟨e, he⟩, rfl, rfl, rfl, rfl⟩
  · exact absurd hfault hne

/-- Settles O6: each case of the step cycle answers (`step_next`). -/
theorem stepAlwaysAnswersNext : Obligations.StepAlwaysAnswersNext := step_next

/-- Settles O9: one step by `step_of_stopped`, any number by induction on the run. -/
theorem stoppedStateNeverChanges : Obligations.StoppedStateNeverChanges :=
  fun _ _ h => ⟨step_of_stopped h, steps_of_stopped h⟩

/-- Settles O15: both steps stop, fault on the same bytes, or retire the same decoded record (`step_retires`). -/
theorem modeDoesNotChangeDecoding : Obligations.ModeDoesNotChangeDecoding := by
  intro s t u m ht hu
  obtain ⟨hstop, rfl⟩ | ⟨e, hs, he, rfl⟩ | ⟨i, r, -, -, hs, hd, -, -⟩ := step_cases_retire ht
  · cases (step_of_stopped (s := { t with mode := m }) hstop).symm.trans hu
    exact ⟨rfl, rfl, rfl⟩
  · cases (step_of_decode_error (s := { s with mode := m }) hs he).symm.trans hu
    exact ⟨rfl, rfl, rfl⟩
  · obtain ⟨t', _, ⟨-, -, -, htf, htn, htt⟩, -, rfl⟩ := step_retires hs hd ht
    obtain ⟨u', _, ⟨-, -, -, huf, hun, hut⟩, -, rfl⟩ := step_retires (s := { s with mode := m }) hs hd hu
    refine ⟨htf.trans huf.symm, congrArg (· + 1) (htn.trans hun.symm), ?_⟩
    rw [State.retire_trace, State.retire_trace, htt, hut, List.map_append, List.map_append]
    rfl

/-- Settles O22: the bytes read are the encoding, which is decoded before any bytes. -/
theorem decodingReadsOnlyItsOwnBytes : Obligations.DecodingReadsOnlyItsOwnBytes := by
  intro bs r r' i h
  obtain ⟨hwf, rfl⟩ := encode_of_decode h
  rw [← encode_length hwf, List.take_left]
  exact decode_encode hwf r'

/-- Settles O1: a launch that is not refused answers `State.launched`. -/
theorem launchSetsResetValues : Obligations.LaunchSetsResetValues := by
  intro bs m s h
  cases launch_next h
  refine ⟨rfl, rfl, rfl, rfl, rfl, rfl, rfl, rfl, rfl, rfl, fun _ => rfl, ?_, rfl, rfl, rfl, rfl⟩
  simp only [State.launched_status, List.length_eq_zero_iff]

/-- Settles O2: the test of the launch, read in both directions. -/
theorem launchRefusesOnlyLongStreams : Obligations.LaunchRefusesOnlyLongStreams := by
  refine fun bs m => ⟨launch_eq_refused_iff, fun ⟨s, h⟩ => (launch_eq_next_iff.1 h).1, fun hlen => ?_⟩
  exact ⟨_, launch_eq_next_iff.2 ⟨hlen, rfl⟩⟩

/-- Settles O3: `State.reset` is a launch too, with the empty stream. -/
theorem launchIsSound : Obligations.LaunchIsSound := by
  refine ⟨State.launched_sound (Nat.zero_le _) .execute, fun bs m s h => ?_⟩
  obtain ⟨hlen, rfl⟩ := launch_eq_next_iff.1 h
  exact State.launched_sound hlen m

/-- Settles O8: the step is fault entry (`step_of_decode_error`), whose record holds what the failure names. -/
theorem decodeFaultEntry : Obligations.DecodeFaultEntry := by
  intro s e hs he
  refine ⟨_, step_of_decode_error hs he, rfl, ?_, ?_, rfl, rfl, rfl, rfl, rfl, rfl, rfl, rfl⟩
  · rintro c rfl
    rfl
  · rintro rfl
    rfl

/-- Settles O10: the bytes at `ip` decode to `i` (`decode_encode`), and the step is `step_execute`. -/
theorem stepRunsDecodedInstruction : Obligations.StepRunsDecodedInstruction := by
  intro i s r hwf hs hm hbytes
  have hd : decode s.fetchBytes = .ok (i, r) := hbytes ▸ decode_encode hwf r
  obtain ⟨u, hu⟩ := exec_next i s
  obtain ⟨hstatus, hmode, hstream, hfault, hretired, htrace⟩ := exec_sameControl hu
  refine ⟨u, _, hu, step_execute hs hm hd hu, rfl, rfl, rfl, rfl, hstream, hmode, hfault, ?_, ?_, ?_⟩
  · rw [State.retire_retired, hretired]
  · rw [State.retire_trace, htrace]
  · rw [State.retire_status, hstream, hstatus, hs]

/-- Settles O25: nine closed words. -/
theorem sampleWordsDecode : Obligations.SampleWordsDecode :=
  ⟨rfl, rfl, rfl, rfl, rfl, rfl, rfl, rfl, rfl⟩

end Sys2Proof.Machine
end

section
/-! What `exec` runs, by the operation of the record: the operands are those of the record (R88). -/

namespace Sys2Proof.Machine

variable {s t u : State} {i : Instr} {w : Width} {dst src : Operand} {fin : Word}

theorem exists_operands_of_op (h : i.op = .mov ∨ i.op = .add ∨ i.op = .sub ∨ i.op = .cmp) :
    ∃ w dst src, i.width = some w ∧ i.operands = some (dst, src) := by
  cases i with
  | movRmReg | movRmImm | movRegImm | movAccMem | movMemAcc | addRmReg | addRmImm | addAccImm | subRmReg | subRmImm
  | subAccImm | cmpRmReg | cmpRmImm | cmpAccImm => exact ⟨_, _, _, rfl, rfl⟩
  | _ => simp [Instr.op] at h

theorem exec_mov (hop : i.op = .mov) (hw : i.width = some w) (hops : i.operands = some (dst, src)) (s : State) :
    exec i s = movOp w dst src (s.endOf i) s := by
  cases i with
  | movRmReg | movRmImm | movRegImm | movAccMem | movMemAcc =>
    cases hw
    cases hops
    rfl
  | _ => cases hop

theorem exec_add (hop : i.op = .add) (hw : i.width = some w) (hops : i.operands = some (dst, src)) (s : State) :
    exec i s = addOp w dst src (s.endOf i) s := by
  cases i with
  | addRmReg | addRmImm | addAccImm =>
    cases hw
    cases hops
    rfl
  | _ => cases hop

theorem exec_sub (hop : i.op = .sub) (hw : i.width = some w) (hops : i.operands = some (dst, src)) (s : State) :
    exec i s = subOp w dst src (s.endOf i) s := by
  cases i with
  | subRmReg | subRmImm | subAccImm =>
    cases hw
    cases hops
    rfl
  | _ => cases hop

theorem exec_cmp (hop : i.op = .cmp) (hw : i.width = some w) (hops : i.operands = some (dst, src)) (s : State) :
    exec i s = cmpOp w dst src (s.endOf i) s := by
  cases i with
  | cmpRmReg | cmpRmImm | cmpAccImm =>
    cases hw
    cases hops
    rfl
  | _ => cases hop

theorem exec_jcc {cc : BitVec 4} (hop : i.op = .jcc cc) (s : State) :
    ∃ taken rel, exec i s = .next (s.branch taken (s.endOf i) rel) := by
  cases i with
  | jo | jno | jb | jnb | jz | jnz | jbe | jnbe | js | jns | jp | jnp | jl | jnl | jle | jnle =>
    exact ⟨_, _, rfl⟩
  | _ => cases hop

/-- JCXZ, of kind 3, branches on CX as it is; the other three count it down first. -/
theorem exec_loopk {k : BitVec 2} (hop : i.op = .loopk k) (s : State) :
    ∃ taken rel, exec i s = .next ((if k = 3 then s else s.setX 1 s.decCx).branch taken (s.endOf i) rel) := by
  cases i with
  | loopnz | loopz | loop | jcxz =>
    cases hop
    exact ⟨_, _, rfl⟩
  | _ => cases hop

theorem width_of_rmOperand_reg {v : Width} {rm : RmOperand} {c : RegCode} (h : rmOperand w rm = .reg v c) : v = w := by
  cases rm <;> cases h
  rfl

/-- A register destination has the width of its instruction (R75). -/
theorem width_of_dst_reg {v : Width} {c : RegCode} (hw : i.width = some w) (hops : i.operands = some (.reg v c, src)) :
    v = w := by
  cases i with
  | movRmReg d _ _ rm | addRmReg d _ _ rm | subRmReg d _ _ rm | cmpRmReg d _ _ rm =>
    cases hw
    obtain ⟨hdst, -⟩ := Prod.mk.inj (Option.some.inj hops)
    cases d with
    | toRm => exact width_of_rmOperand_reg hdst
    | toReg => cases hdst; rfl
  | movRmImm | addRmImm | subRmImm | cmpRmImm =>
    cases hw
    obtain ⟨hdst, -⟩ := Prod.mk.inj (Option.some.inj hops)
    exact width_of_rmOperand_reg hdst
  | movRegImm | movAccMem | addAccImm | subAccImm | cmpAccImm =>
    cases hw
    cases hops
    rfl
  | movMemAcc => cases hops
  | _ => cases hw

/-! ## The frame of a write (R22, R53) and the value written -/

theorem State.onlyWrites_of_writeOp {v : BitVec w.bits} (hm : s.mem.wf) (h : s.writeOp w dst v = .next u)
    (hregs : t.regs = u.regs) (hmem : t.mem = u.mem) : OnlyWrites w dst s t := by
  have inMemory {a : Word} (ha : s.ea dst = some a) (hu : u = s.memWrite w a v) :
      t.regs = s.regs ∧ ∀ a, s.ea dst = some a → ∀ b, b ∉ accessBytes w a → t.memByte b = s.memByte b := by
    subst hu
    refine ⟨hregs.trans (s.memWrite_regs w a v), fun a' ha' b hb => ?_⟩
    cases ha.symm.trans ha'
    rw [State.memByte_of_mem hmem, State.memByte_memWrite_other hm w a b v hb]
  cases dst with
  | reg _ c =>
    cases h
    refine ⟨hmem.trans (s.writeReg_mem w c v), fun d hd => ?_, ?_⟩
    · rw [State.x_of_regs hregs, State.x_writeReg_other s w c d v hd]
    · rintro rfl d hd
      rw [State.x8_of_regs hregs, State.writeReg, State.x8_setX8, if_neg hd]
  | memDirect a => exact inMemory rfl (Host.Outcome.next.inj h).symm
  | memIndexed b d => exact inMemory rfl (Host.Outcome.next.inj h).symm
  | imm _ => cases h

theorem State.valueAt_of_writeOp {v : BitVec w.bits} (hm : s.mem.wf) (h : s.writeOp w dst v = .next u)
    (hregs : t.regs = u.regs) (hmem : t.mem = u.mem) : s.valueAt t w dst = v := by
  obtain ⟨_, c, rfl, rfl⟩ | ⟨a, ha, rfl⟩ := State.writeOp_next h
  · exact (State.readReg_of_regs hregs w c).trans (State.readReg_writeReg_same s w c v)
  · rw [State.valueAt, ha]
    exact (State.memRead_of_mem hmem w a).trans (State.memRead_memWrite_same hm w a v)

theorem onlyWrites_of_movOp (hm : s.mem.wf) (h : movOp w dst src fin s = .next t) : OnlyWrites w dst s t := by
  obtain ⟨u, hu, rfl⟩ := movOp_next h
  exact State.onlyWrites_of_writeOp hm hu rfl rfl

theorem onlyWrites_of_aluWrite {r : AluResult w.bits} (hm : s.mem.wf) (h : aluWrite w dst r fin s = .next t) :
    OnlyWrites w dst s t := by
  obtain ⟨u, hu, rfl⟩ := aluWrite_next h
  exact State.onlyWrites_of_writeOp hm hu rfl rfl

/-- MOV, ADD and SUB change no register and no byte but the destination's. -/
theorem onlyWrites_of_exec (hm : s.mem.wf) (hop : i.op = .mov ∨ i.op = .add ∨ i.op = .sub) (hw : i.width = some w)
    (hops : i.operands = some (dst, src)) (h : exec i s = .next t) : OnlyWrites w dst s t := by
  obtain hop | hop | hop := hop
  · exact onlyWrites_of_movOp hm (exec_mov hop hw hops s ▸ h)
  · exact onlyWrites_of_aluWrite hm (exec_add hop hw hops s ▸ h)
  · exact onlyWrites_of_aluWrite hm (exec_sub hop hw hops s ▸ h)

end Sys2Proof.Machine
end

section
/-! The rules of the shared operations as the statements say them (`Completes`, `AddsTo`, `SubtractsFrom`, `Compares`), for
any instruction that runs the operation on these operands. -/

namespace Sys2Proof.Machine

open Sys2Proof.Claims

variable {s t u : State} {i : Instr} {w : Width} {dst src : Operand} {fin : Word} {b : BitVec w.bits}

/-! ## Immediates as numbers (R74, R82) -/

theorem immValue_eq_ofNat (w : Width) (v : Imm) : immValue w v = BitVec.ofNat w.bits (immNat v) := by
  cases v <;> exact (BitVec.ofNat_toNat _ _).symm

theorem State.readOp_groupSrc (s : State) (w : Width) (v : Imm) :
    s.readOp w (groupSrc w v) = BitVec.ofNat w.bits (groupImmNat w v) := by
  cases w with
  | byte => exact immValue_eq_ofNat .byte v
  | word =>
    cases v with
    | imm8 v => exact (immValue_eq_ofNat .word (.imm16 (sext16 v))).trans (congrArg _ (toNat_sext16 v))
    | imm16 v => exact immValue_eq_ofNat .word (.imm16 v)

/-! ## MOV, ADD, SUB and CMP -/

theorem completes_of_movOp (hm : s.mem.wf) (hrun : exec i s = movOp w dst src (s.endOf i) s)
    (hdst : ∀ v, ∃ u, s.writeOp w dst v = .next u) :
    Completes i s w dst (s.readOp w src).toNat s.flags i.length := by
  obtain ⟨u, hu⟩ := hdst (s.readOp w src)
  have hx : exec i s = .next (u.setIp (s.endOf i)) := by rw [hrun, movOp, hu, onNext_next]
  obtain ⟨-, hflags, -⟩ := State.writeOp_keeps hu
  exact ⟨_, hx, congrArg BitVec.toNat (State.valueAt_of_writeOp hm hu rfl rfl), hflags, toNat_endOf s i,
    exec_sameControl hx⟩

theorem completes_of_aluWrite {r : AluResult w.bits} (hm : s.mem.wf) (hrun : exec i s = aluWrite w dst r (s.endOf i) s)
    (hdst : ∀ v, ∃ u, s.writeOp w dst v = .next u) :
    Completes i s w dst r.value.toNat r.flags.toWord i.length := by
  obtain ⟨u, hu⟩ := hdst r.value
  have hx : exec i s = .next ((u.setFlags r.flags).setIp (s.endOf i)) := by rw [hrun, aluWrite, hu, onNext_next]
  exact ⟨_, hx, congrArg BitVec.toNat (State.valueAt_of_writeOp hm hu rfl rfl), rfl, toNat_endOf s i,
    exec_sameControl hx⟩

theorem addsTo_of_addOp (hm : s.mem.wf) (hrun : exec i s = addOp w dst src (s.endOf i) s)
    (hdst : ∀ v, ∃ u, s.writeOp w dst v = .next u) (hb : s.readOp w src = b) : AddsTo i s w dst b i.length := by
  subst hb
  rw [AddsTo, ← BitVec.toNat_add]
  exact completes_of_aluWrite hm hrun hdst

theorem subtractsFrom_of_subOp (hm : s.mem.wf) (hrun : exec i s = subOp w dst src (s.endOf i) s)
    (hdst : ∀ v, ∃ u, s.writeOp w dst v = .next u) (hb : s.readOp w src = b) :
    SubtractsFrom i s w dst b i.length := by
  subst hb
  rw [SubtractsFrom, ← toNat_sub_eq_add_sub_mod]
  exact completes_of_aluWrite hm hrun hdst

theorem compares_of_cmpOp (hrun : exec i s = cmpOp w dst src (s.endOf i) s) (hb : s.readOp w src = b) :
    Compares i s w dst b i.length := by
  subst hb
  exact ⟨_, hrun, rfl, toNat_endOf s i, rfl⟩

/-- CMP and SUB compute the flags by one formula (R141). -/
theorem cmpOp_flags_eq_subOp_flags (ht : cmpOp w dst src fin s = .next t) (hu : subOp w dst src fin s = .next u) :
    t.flags = u.flags ∧ t.ip = u.ip := by
  obtain ⟨v, -, rfl⟩ := aluWrite_next hu
  cases ht
  exact ⟨rfl, rfl⟩

end Sys2Proof.Machine
end

section
/-! The obligations about MOV, ADD, SUB and CMP. -/

namespace Sys2Proof.Machine

open Sys2Proof.Claims

/-- Settles O34: both directions run `movOp` (`completes_of_movOp`). -/
theorem movRegisterMemoryResult : Obligations.MovRegisterMemoryResult := fun s w reg rm hm =>
  ⟨completes_of_movOp (src := .reg w reg) hm rfl (s.writeOp_rmOperand w rm),
    completes_of_movOp hm rfl fun _ => ⟨_, rfl⟩⟩

/-- Settles O35: as O34, with the immediate as a number (`toNat_immValue`). -/
theorem movImmediateResult : Obligations.MovImmediateResult := by
  intro s w reg rm imm hm hfits
  rw [← toNat_immValue hfits]
  exact ⟨completes_of_movOp (src := .imm imm) hm rfl (s.writeOp_rmOperand w rm),
    completes_of_movOp (src := .imm imm) hm rfl fun _ => ⟨_, rfl⟩⟩

/-- Settles O36: as O34. -/
theorem movAccumulatorResult : Obligations.MovAccumulatorResult := fun _ _ addr hm =>
  ⟨completes_of_movOp (src := .memDirect addr) hm rfl fun _ => ⟨_, rfl⟩,
    completes_of_movOp (src := .reg _ 0) hm rfl fun _ => ⟨_, rfl⟩⟩

/-- Settles O37: MOV is one write of its destination (`onlyWrites_of_exec`). -/
theorem movFrame : Obligations.MovFrame := by
  intro i s t w dst src hm hop hw hops h
  refine ⟨onlyWrites_of_exec hm (.inl hop) hw hops h, exec_flags_of_not_writesFlags ?_ h, exec_sameControl h⟩
  rw [writesFlags, hop]

/-- Settles O38: every form runs `addOp` (`addsTo_of_addOp`). -/
theorem addResult : Obligations.AddResult := fun s w hm =>
  ⟨fun _ rm => addsTo_of_addOp hm rfl (s.writeOp_rmOperand w rm) rfl,
    fun _ _ => addsTo_of_addOp hm rfl (fun _ => ⟨_, rfl⟩) rfl,
    fun _ rm imm _ => addsTo_of_addOp hm rfl (s.writeOp_rmOperand w rm) (s.readOp_groupSrc w imm),
    fun imm _ => addsTo_of_addOp hm rfl (fun _ => ⟨_, rfl⟩) (immValue_eq_ofNat w imm)⟩

/-- Settles O39: every form runs `subOp` (`subtractsFrom_of_subOp`). -/
theorem subResult : Obligations.SubResult := fun s w hm =>
  ⟨fun _ rm => subtractsFrom_of_subOp hm rfl (s.writeOp_rmOperand w rm) rfl,
    fun _ _ => subtractsFrom_of_subOp hm rfl (fun _ => ⟨_, rfl⟩) rfl,
    fun _ rm imm _ => subtractsFrom_of_subOp hm rfl (s.writeOp_rmOperand w rm) (s.readOp_groupSrc w imm),
    fun imm _ => subtractsFrom_of_subOp hm rfl (fun _ => ⟨_, rfl⟩) (immValue_eq_ofNat w imm)⟩

/-- Settles O40: every form runs `cmpOp` (`compares_of_cmpOp`). -/
theorem cmpResult : Obligations.CmpResult := fun s w =>
  ⟨fun _ _ => compares_of_cmpOp rfl rfl, fun _ _ => compares_of_cmpOp rfl rfl,
    fun _ _ imm _ => compares_of_cmpOp rfl (s.readOp_groupSrc w imm),
    fun imm _ => compares_of_cmpOp rfl (immValue_eq_ofNat w imm)⟩

/-- Settles O41: both forms have one length and the same operands (`cmpOp_flags_eq_subOp_flags`). -/
theorem cmpSetsTheFlagsOfSub : Obligations.CmpSetsTheFlagsOfSub := fun _ _ _ =>
  ⟨fun _ _ _ _ => cmpOp_flags_eq_subOp_flags, fun _ _ _ _ => cmpOp_flags_eq_subOp_flags,
    fun _ _ => cmpOp_flags_eq_subOp_flags⟩

/-- Settles O42: one write of the destination, and the flags word of six flags (`exec_flags_of_writesFlags`). -/
theorem addSubFrame : Obligations.AddSubFrame := by
  intro i s t w dst src hm hop hw hops h
  refine ⟨onlyWrites_of_exec hm (.inr hop) hw hops h, ?_, exec_sameControl h⟩
  obtain ⟨f, hf⟩ := exec_flags_of_writesFlags ((writesFlags_eq_true_iff i).2 (hop.imp_right .inl)) h
  rw [hf, Flags.toWord_reserved]

end Sys2Proof.Machine
end

section
/-! What CF, AF, OF and the signed comparison mean (spec/10_state.md R28, R30, R33), on bit vectors of any width. -/

namespace Sys2Proof.Machine

variable {n : Nat} (x y : BitVec n)

/-! ## OF (R33) -/

theorem saddOverflow_iff : x.saddOverflow y = true ↔ x.toInt + y.toInt ≠ (x + y).toInt := by
  refine ⟨fun h heq => ?_, fun hne => by_contra fun h => hne (BitVec.toInt_add_of_not_saddOverflow h).symm⟩
  rw [BitVec.saddOverflow, heq, Bool.or_eq_true, decide_eq_true_eq, decide_eq_true_eq] at h
  exact h.elim (not_le.2 (x + y).toInt_lt) (not_lt.2 (x + y).le_toInt)

theorem ssubOverflow_iff : x.ssubOverflow y = true ↔ x.toInt - y.toInt ≠ (x - y).toInt := by
  refine ⟨fun h heq => ?_, fun hne => by_contra fun h => hne (BitVec.toInt_sub_of_not_ssubOverflow h).symm⟩
  rw [BitVec.ssubOverflow, heq, Bool.or_eq_true, decide_eq_true_eq, decide_eq_true_eq] at h
  exact h.elim (not_le.2 (x - y).toInt_lt) (not_lt.2 (x - y).le_toInt)

theorem addFlags_of : (addFlags x y).flags.of = x.saddOverflow y := by
  rw [BitVec.saddOverflow_eq, addFlags]
  simp only [BitVec.msb_and, BitVec.msb_xor]
  cases x.msb <;> cases y.msb <;> cases (x + y).msb <;> rfl

theorem subFlags_of : (subFlags x y).flags.of = x.ssubOverflow y := by
  rw [BitVec.ssubOverflow_eq, subFlags]
  simp only [BitVec.msb_and, BitVec.msb_xor]
  cases x.msb <;> cases y.msb <;> cases (x - y).msb <;> rfl

/-! ## CF (R28) -/

theorem addFlags_cf_iff : (addFlags x y).flags.cf = true ↔ x.toNat + y.toNat ≠ (x + y).toNat := by
  rw [addFlags, decide_eq_true_eq, BitVec.toNat_add, ne_comm, ne_eq, Nat.mod_eq_iff_lt (Nat.two_pow_pos n).ne', not_lt]

/-! ## AF (R30) -/

/-- Bit 4 of the three-way exclusive or is the carry that addition brings into it. -/
theorem addFlags_af (hn : 4 < n) : (addFlags x y).flags.af = decide (16 ≤ x.toNat % 16 + y.toNat % 16) := by
  have hcarry : BitVec.carry 4 x y false = decide (16 ≤ x.toNat % 16 + y.toNat % 16) := rfl
  rw [addFlags, BitVec.getLsbD_xor, BitVec.getLsbD_xor, BitVec.getLsbD_add hn, hcarry]
  cases x.getLsbD 4 <;> cases y.getLsbD 4 <;> simp

/-- The borrow into bit 3 is the carry of adding the source back to the difference. -/
theorem subFlags_af (hn : 4 < n) : (subFlags x y).flags.af = decide (x.toNat % 16 < y.toNat % 16) := by
  have hback : (x - y) + y = x := BitVec.sub_add_cancel x y
  have haf : (subFlags x y).flags.af = (addFlags (x - y) y).flags.af := by
    rw [subFlags, addFlags, hback, BitVec.xor_comm x y, BitVec.xor_assoc, BitVec.xor_comm x, ← BitVec.xor_assoc,
      BitVec.xor_comm y]
  have hmod : x.toNat % 16 = ((x - y).toNat % 16 + y.toNat % 16) % 16 := by
    have hdvd : 16 ∣ 2 ^ n := pow_dvd_pow 2 hn.le
    calc x.toNat % 16 = ((x - y).toNat + y.toNat) % 2 ^ n % 16 := by rw [← BitVec.toNat_add, hback]
      _ = ((x - y).toNat % 16 + y.toNat % 16) % 16 := by rw [Nat.mod_mod_of_dvd _ hdvd, Nat.add_mod]
  rw [haf, addFlags_af _ _ hn, decide_eq_decide]
  omega

/-! ## The order of the operands, by the flags of their difference -/

theorem subFlags_zf : (subFlags x y).flags.zf = decide (x = y) := decide_eq_decide.2 sub_eq_zero

/-- SF differs from OF exactly for operands in signed order: where the difference fits SF is its sign, and where it does
not the operands' signs differ. -/
theorem subFlags_sf_xor_of :
    ((subFlags x y).flags.sf ^^ (subFlags x y).flags.of) = decide (x.toInt < y.toInt) := by
  have hsf : (subFlags x y).flags.sf = (x - y).msb := rfl
  rw [hsf, subFlags_of]
  by_cases hof : x.ssubOverflow y = true
  · have hsigns : (0 ≤ x.toInt ∧ y.toInt < 0 ∧ (x - y).msb = true) ∨
        (x.toInt < 0 ∧ 0 ≤ y.toInt ∧ (x - y).msb = false) := by
      simpa [BitVec.ssubOverflow_eq, BitVec.msb_eq_toInt (x := x), BitVec.msb_eq_toInt (x := y), and_assoc] using hof
    obtain ⟨hx, hy, hr⟩ | ⟨hx, hy, hr⟩ := hsigns
    · rw [hof, hr, decide_eq_false (by omega)]
      rfl
    · rw [hof, hr, decide_eq_true (by omega)]
      rfl
  · rw [Bool.eq_false_iff.2 hof, Bool.xor_false, BitVec.msb_eq_toInt, BitVec.toInt_sub_of_not_ssubOverflow hof,
      decide_eq_decide]
    omega

end Sys2Proof.Machine
end

section
/-! What the trace record lists, by the operation (spec/60_exceptions.md R214), and that nothing else changes. -/

namespace Sys2Proof.Machine

open Sys2Proof.Claims

variable {s t : State} {i : Instr} {w v : Width} {dst src : Operand} {a : Word} {c : RegCode}

/-! ## What the record lists -/

theorem writtenOperand_of_operands (hop : i.op = .mov ∨ i.op = .add ∨ i.op = .sub)
    (hops : i.operands = some (dst, src)) : writtenOperand i = some dst := by
  obtain hop | hop | hop := hop <;> simp [writtenOperand, hop, hops]

theorem writtenOperand_eq_none (hop : i.op = .cmp ∨ (∃ cc, i.op = .jcc cc) ∨ ∃ k, i.op = .loopk k) :
    writtenOperand i = none := by
  obtain hop | ⟨cc, hop⟩ | ⟨k, hop⟩ := hop <;> rw [writtenOperand, hop]

theorem writtenRegs_of_reg (hdst : writtenOperand i = some (.reg v c)) : writtenRegs i = [containing v c] := by
  obtain ⟨hop | hop | hop, -⟩ := writtenOperand_eq_some hdst <;> simp [writtenRegs, hop, hdst]

theorem writtenRegs_of_ea (hdst : writtenOperand i = some dst) (ha : s.ea dst = some a) : writtenRegs i = [] := by
  cases dst with
  | memDirect | memIndexed =>
    obtain ⟨hop | hop | hop, -⟩ := writtenOperand_eq_some hdst <;> simp [writtenRegs, hop, hdst]
  | reg | imm => cases ha

theorem writtenRegs_of_cmp_or_jcc (hop : i.op = .cmp ∨ ∃ cc, i.op = .jcc cc) : writtenRegs i = [] := by
  obtain hop | ⟨cc, hop⟩ := hop <;> simp [writtenRegs, writtenOperand, hop]

theorem writtenRegs_of_loopk {k : BitVec 2} (hop : i.op = .loopk k) : writtenRegs i = if k = 3 then [] else [1] := by
  rw [writtenRegs, hop]

theorem State.writtenBytes_of_ea (hw : i.width = some w) (hdst : writtenOperand i = some dst) (ha : s.ea dst = some a) :
    s.writtenBytes i = accessBytes w a := by
  simp [State.writtenBytes, hw, hdst, ha]

theorem State.writtenBytes_eq_nil (h : (writtenOperand i).bind s.ea = none) : s.writtenBytes i = [] := by
  rw [State.writtenBytes, h]
  cases i.width <;> rfl

theorem containing_eq_storedIn (w : Width) (c : RegCode) : containing w c = storedIn w c := by
  cases w <;> revert c <;> decide

theorem accessBytes_eq_ite (w : Width) (a : Word) : accessBytes w a = if w = .byte then [a] else [a, a + 1] := by
  cases w <;> rfl

theorem lists_of_written {regs : List RegCode} {bytes : List Word} (hregs : writtenRegs i = regs)
    (hbytes : s.writtenBytes i = bytes) : Lists i s t regs bytes := by
  subst hregs hbytes
  exact ⟨rfl, .refl _⟩

/-! ## What is not listed does not change -/

theorem OnlyWrites.x_other (h : OnlyWrites w dst s t) (hc : ∀ v d, dst = .reg v d → c ≠ containing w d) :
    t.x c = s.x c := by
  cases dst with
  | reg v d =>
    obtain ⟨-, hother, -⟩ := h
    exact hother c (hc v d rfl)
  | memDirect | memIndexed | imm => exact State.x_of_regs h.1 c

theorem exec_x_of_not_mem_writtenRegs (hm : s.mem.wf) (h : exec i s = .next t) (hc : c ∉ writtenRegs i) :
    t.x c = s.x c := by
  cases hop : i.op with
  | mov | add | sub =>
    obtain ⟨w, dst, src, hw, hops⟩ := exists_operands_of_op (i := i) (by simp [hop])
    refine (onlyWrites_of_exec hm (by simp [hop]) hw hops h).x_other ?_
    rintro v d rfl rfl
    obtain rfl := width_of_dst_reg hw hops
    exact hc (by simp [writtenRegs_of_reg (writtenOperand_of_operands (by simp [hop]) hops)])
  | cmp =>
    obtain ⟨w, dst, src, hw, hops⟩ := exists_operands_of_op (i := i) (by simp [hop])
    cases (exec_cmp hop hw hops s).symm.trans h
    rfl
  | jcc cc =>
    obtain ⟨taken, rel, hx⟩ := exec_jcc hop s
    cases hx.symm.trans h
    rfl
  | loopk k =>
    obtain ⟨taken, rel, hx⟩ := exec_loopk hop s
    cases hx.symm.trans h
    rw [writtenRegs_of_loopk hop] at hc
    rw [State.x_of_regs (State.branch_regs _ _ _ _)]
    by_cases hk : k = 3
    · rw [if_pos hk]
    · rw [if_neg hk] at hc ⊢
      exact State.x_setX_other (by simpa using hc) _

theorem exec_memByte_of_not_mem_writtenBytes (hm : s.mem.wf) (h : exec i s = .next t) (ha : a ∉ s.writtenBytes i) :
    t.memByte a = s.memByte a := by
  obtain hmem | ⟨w, dst, hw, hdst, b, v, hb, hmem⟩ := exec_mem h
  · exact State.memByte_of_mem hmem a
  · rw [State.writtenBytes_of_ea hw hdst hb] at ha
    rw [State.memByte_of_mem hmem, State.memByte_memWrite_other hm w b a v ha]

end Sys2Proof.Machine
end

section
/-! `ip` after any instruction, and where a conditional jump goes (spec/42_jcc_loop.md). -/

namespace Sys2Proof.Machine

open Sys2Proof.Claims (ConditionalJump JumpsTo)

variable {s t : State} {i : Instr}

/-! ## `ip` after an instruction (R160, R161) -/

theorem State.branch_ip_cases (s : State) (taken : Bool) (fin : Word) (rel : Byte) :
    (s.branch taken fin rel).ip = fin ∨ (s.branch taken fin rel).ip = branchTarget fin rel := by
  cases taken
  case false => exact .inl rfl
  case true => exact .inr rfl

/-- `ip` goes to the end of the instruction, or to the target of a J8 form. -/
theorem exec_ip (h : exec i s = .next t) :
    t.ip = s.endOf i ∨ ∃ rel, i.rel8 = some rel ∧ t.ip = branchTarget (s.endOf i) rel := by
  cases i with
  | movRmReg | movRmImm =>
    obtain ⟨u, -, rfl⟩ := movOp_next h
    exact .inl rfl
  | addRmReg | addRmImm | subRmReg | subRmImm =>
    obtain ⟨u, -, rfl⟩ := aluWrite_next h
    exact .inl rfl
  | movRegImm | movAccMem | movMemAcc | addAccImm | subAccImm | cmpRmReg | cmpRmImm | cmpAccImm =>
    cases h
    exact .inl rfl
  | _ =>
    cases h
    exact (State.branch_ip_cases ..).imp_right fun hip => ⟨_, rfl, hip⟩

/-! ## Conditions (R165 to R170, R175 to R178) -/

/-- A conditional jump goes where the value of its condition says. -/
theorem jump_goes {opcode : Byte} {mk : Byte → Instr} {taken : State → Bool} {b : Bool}
    (h : ConditionalJump opcode mk taken) (rel : Byte) (hb : taken t = b) :
    ∃ u, exec (mk rel) t = .next u ∧ JumpsTo t u b rel := by
  obtain ⟨-, -, hrun⟩ := h
  obtain ⟨u, hu, -, hjump⟩ := hrun rel t
  exact ⟨u, hu, hb ▸ hjump⟩

section
variable {b c : Bool} {p q r : Prop} [Decidable p] [Decidable q] [Decidable r]

theorem not_eq_decide (hb : b = decide p) (h : ¬p ↔ q) : (!b) = decide q := by
  rw [hb, ← decide_not, decide_eq_decide, h]

theorem or_eq_decide (hb : b = decide p) (hc : c = decide q) (h : p ∨ q ↔ r) : (b || c) = decide r := by
  rw [hb, hc, ← Bool.decide_or, decide_eq_decide, h]

theorem and_eq_decide (hb : b = decide p) (hc : c = decide q) (h : p ∧ q ↔ r) : (b && c) = decide r := by
  rw [hb, hc, ← Bool.decide_and, decide_eq_decide, h]

end

end Sys2Proof.Machine
end

section
/-! The obligations about the meaning of the flags, the jumps after CMP, `ip` and the trace record. -/

namespace Sys2Proof.Machine

/-- Settles O31: CF by the unsigned sum, OF by the library's signed overflow, AF by the carry into bit 4. -/
theorem carryAuxiliaryAndOverflowMeaning : Obligations.CarryAuxiliaryAndOverflowMeaning := by
  intro w a b
  have hbits : 4 < w.bits := by cases w <;> decide
  refine ⟨addFlags_cf_iff a b, ?_, ?_, decide_eq_true_iff, ?_, ?_⟩
  · rw [addFlags_of]
    exact saddOverflow_iff a b
  · rw [addFlags_af a b hbits, decide_eq_true_iff]
  · rw [subFlags_of]
    exact ssubOverflow_iff a b
  · rw [subFlags_af a b hbits, decide_eq_true_iff]

/-- Settles O46: CF, ZF and SF ≠ OF after the comparison are below, equal and less; the other conditions combine them. -/
theorem jumpAfterCompareDecidesOrder : Obligations.JumpAfterCompareDecidesOrder := by
  intro cmp w dst src s t rel hop hw hops h a b goes
  cases (exec_cmp hop hw hops s).symm.trans h
  obtain ⟨-, -, jb, jnb, jz, jnz, -⟩ := singleFlagJumps
  obtain ⟨jbe, jnbe, jl, jnl, jle, jnle⟩ := comparisonJumps
  have below : (subFlags a b).flags.toWord.getLsbD 0 = decide (a.toNat < b.toNat) := Flags.toWord_cf _
  have equal : (subFlags a b).flags.toWord.getLsbD 6 = decide (a = b) := by rw [Flags.toWord_zf, subFlags_zf]
  have less : ((subFlags a b).flags.toWord.getLsbD 7 ^^ (subFlags a b).flags.toWord.getLsbD 11) =
      decide (a.toInt < b.toInt) := by rw [Flags.toWord_sf, Flags.toWord_of, subFlags_sf_xor_of]
  have notEqual := not_eq_decide (q := a ≠ b) equal Iff.rfl
  have notBelow := not_eq_decide below not_lt
  have notLess := not_eq_decide less not_lt
  have unsignedEq : a = b ↔ a.toNat = b.toNat := BitVec.toNat_eq
  have signedEq : a = b ↔ a.toInt = b.toInt := BitVec.toInt_inj.symm
  exact ⟨jump_goes jz rel equal, jump_goes jnz rel notEqual, jump_goes jb rel below, jump_goes jnb rel notBelow,
    jump_goes jbe rel (or_eq_decide below equal (by rw [unsignedEq]; omega)),
    jump_goes jnbe rel (and_eq_decide notBelow notEqual (by rw [ne_eq, unsignedEq]; omega)),
    jump_goes jl rel less, jump_goes jnl rel notLess,
    jump_goes jle rel (or_eq_decide equal less (by rw [signedEq]; omega)),
    jump_goes jnle rel (and_eq_decide notEqual notLess (by rw [ne_eq, signedEq]; omega))⟩

/-- Settles O48: the instruction lies in the stream (`ip_add_length_le`), and `ip` is its end or its target (`exec_ip`). -/
theorem instructionPointerAdvance : Obligations.InstructionPointerAdvance := by
  intro s u i r hsound hs hd hx
  refine ⟨ip_add_length_le hd, hsound.stream, ?_⟩
  rw [← hsound.toNat_endOf hd, ← Int.natCast_add, ← hsound.toNat_endOf hd]
  obtain hip | ⟨rel, hrel, hip⟩ := exec_ip hx
  · exact .inl (congrArg _ hip)
  · exact .inr ⟨rel, hrel, hip ▸ toNat_branchTarget _ rel⟩

/-- Settles O14: what the record does not list is unchanged. -/
theorem traceRecordShowsEveryChange : Obligations.TraceRecordShowsEveryChange := by
  intro i s t hm h
  refine ⟨rfl, rfl, fun c hne => ?_, fun a hne => ?_, fun hne => ?_⟩
  · exact List.mem_map_of_mem (by_contra fun hc => hne (exec_x_of_not_mem_writtenRegs hm h hc))
  · exact List.mem_map_of_mem (by_contra fun ha => hne (exec_memByte_of_not_mem_writtenBytes hm h ha))
  · have hw : writesFlags i = true := by
      by_contra hw
      exact hne (exec_flags_of_not_writesFlags (Bool.eq_false_iff.2 hw) h)
    exact if_pos hw

/-- Settles O50: each clause is the two lists of its operation. -/
theorem traceRecordListsExactlyTheWrites : Obligations.TraceRecordListsExactlyTheWrites := by
  intro i s t _
  refine ⟨fun w dst src hop hw hops => ?_, fun hop => ?_, fun k hop => ?_, ?_⟩
  · have hdst := writtenOperand_of_operands hop hops
    refine ⟨?_, fun a ha => ?_⟩
    · rintro v c rfl
      obtain rfl := width_of_dst_reg hw hops
      rw [← containing_eq_storedIn]
      exact lists_of_written (writtenRegs_of_reg hdst) (State.writtenBytes_eq_nil (by rw [hdst]; rfl))
    · rw [← accessBytes_eq_ite]
      exact lists_of_written (writtenRegs_of_ea hdst ha) (State.writtenBytes_of_ea hw hdst ha)
  · have hnone : writtenOperand i = none := writtenOperand_eq_none (hop.imp_right .inl)
    exact lists_of_written (writtenRegs_of_cmp_or_jcc hop) (State.writtenBytes_eq_nil (by rw [hnone]; rfl))
  · have hnone : writtenOperand i = none := writtenOperand_eq_none (.inr (.inr ⟨k, hop⟩))
    exact lists_of_written (writtenRegs_of_loopk hop) (State.writtenBytes_eq_nil (by rw [hnone]; rfl))
  · rw [effectsOf]
    simp only [writesFlags_eq_true_iff]

end Sys2Proof.Machine
end
